-- ==== Sys2Proof/Word.lean ====
section
/-! DEFINITION. The word types of the machine: bytes, 12-bit addresses, instruction words and nibbles (spec/00_scope.md R4, spec/10_state.md R13, R14). -/

namespace Sys2Proof

/-- An 8-bit quantity: a general register, a timer, a byte of memory (R11, R18, R30). -/
abbrev Byte := BitVec 8

/-- A 12-bit address: `PC`, `I`, a stack slot, an `nnn` field (R13, R14, R15, R51). Arithmetic on it wraps modulo 4096. -/
abbrev Addr := BitVec 12

/-- A 16-bit instruction word, bit 15 the most significant bit of the first byte (R4, R50). -/
abbrev Word := BitVec 16

/-- A 4-bit field of an instruction: an opcode family, a register index or `n` (R51). -/
abbrev Nibble := BitVec 4

end Sys2Proof
end

