-- ==== Sys2Proof/Syntax.lean ====
section
/-! DEFINITION. The instruction set: one constructor per row of spec/opcode_table.json (spec/30_encoding.md R55), the fallback row "(ignored)" among them (R56). -/

namespace Sys2Proof

/-- The 34 instructions of R55 in the table's order, then the ignored encodings of R56. Operands are the fields of R51:
`x`, `y` register indices, `n`, `nn`, `nnn` unsigned immediates (R53). -/
inductive Instr where
  /-- `00E0` CLS (R121). -/
  | cls
  /-- `00EE` RET (R80). -/
  | ret
  /-- `1NNN` JP nnn (R81). -/
  | jp (nnn : Addr)
  /-- `2NNN` CALL nnn (R82). -/
  | call (nnn : Addr)
  /-- `3XNN` SE Vx, nn (R83). -/
  | seImm (x : Nibble) (nn : Byte)
  /-- `4XNN` SNE Vx, nn (R84). -/
  | sneImm (x : Nibble) (nn : Byte)
  /-- `5XY0` SE Vx, Vy (R85). -/
  | seReg (x y : Nibble)
  /-- `6XNN` LD Vx, nn (R90). -/
  | ldImm (x : Nibble) (nn : Byte)
  /-- `7XNN` ADD Vx, nn (R91). -/
  | addImm (x : Nibble) (nn : Byte)
  /-- `8XY0` LD Vx, Vy (R92). -/
  | ldReg (x y : Nibble)
  /-- `8XY1` OR Vx, Vy (R93). -/
  | orReg (x y : Nibble)
  /-- `8XY2` AND Vx, Vy (R94). -/
  | andReg (x y : Nibble)
  /-- `8XY3` XOR Vx, Vy (R95). -/
  | xorReg (x y : Nibble)
  /-- `8XY4` ADD Vx, Vy (R96). -/
  | addReg (x y : Nibble)
  /-- `8XY5` SUB Vx, Vy (R97). -/
  | subReg (x y : Nibble)
  /-- `8XY6` SHR Vx (R98); `y` is decoded and its register not used (R57). -/
  | shr (x y : Nibble)
  /-- `8XY7` SUBN Vx, Vy (R99). -/
  | subnReg (x y : Nibble)
  /-- `8XYE` SHL Vx (R100); `y` is decoded and its register not used (R57). -/
  | shl (x y : Nibble)
  /-- `9XY0` SNE Vx, Vy (R86). -/
  | sneReg (x y : Nibble)
  /-- `ANNN` LD I, nnn (R110). -/
  | ldI (nnn : Addr)
  /-- `BNNN` JP V0, nnn (R87). -/
  | jpV0 (nnn : Addr)
  /-- `CXNN` RND Vx, nn (R101). -/
  | rnd (x : Nibble) (nn : Byte)
  /-- `DXYN` DRW Vx, Vy, n (R122); `n = 0` is `DXY0` (R124). -/
  | drw (x y n : Nibble)
  /-- `EX9E` SKP Vx (R131). -/
  | skp (x : Nibble)
  /-- `EXA1` SKNP Vx (R132). -/
  | sknp (x : Nibble)
  /-- `FX07` LD Vx, DT (R134). -/
  | ldVxDT (x : Nibble)
  /-- `FX0A` LD Vx, K (R133). -/
  | ldVxK (x : Nibble)
  /-- `FX15` LD DT, Vx (R135). -/
  | ldDTVx (x : Nibble)
  /-- `FX18` LD ST, Vx (R136). -/
  | ldSTVx (x : Nibble)
  /-- `FX1E` ADD I, Vx (R111). -/
  | addI (x : Nibble)
  /-- `FX29` LD F, Vx (R112). -/
  | ldF (x : Nibble)
  /-- `FX33` LD B, Vx (R113). -/
  | ldB (x : Nibble)
  /-- `FX55` LD [I], Vx (R114). -/
  | storeRegs (x : Nibble)
  /-- `FX65` LD Vx, [I] (R115). -/
  | loadRegs (x : Nibble)
  /-- An ignored encoding (R56, R75): the word `w`, which matches no row of R55. -/
  | ignored (w : Word)
  deriving DecidableEq, Repr

end Sys2Proof
end

