-- ==== Sys2Proof/WellFormed.lean ====
section
/-! DEFINITION. Which instructions are well formed. Every operand field fits its bits by its type (R51, R53); the one
thing left to check is that the word of an ignored encoding is one of R56's. -/

namespace Sys2Proof

/-- Family 0: `0NNN` for every `nnn` other than 0x0E0 and 0x0EE is ignored (R56). -/
def ignoredZero (w : Word) : Bool :=
  w.extractLsb' 12 4 == 0x0 && w.extractLsb' 0 12 != 0x0E0 && w.extractLsb' 0 12 != 0x0EE

/-- Families 5 and 9: a word with `n` other than 0 is ignored (R56). -/
def ignoredCompare (w : Word) : Bool :=
  (w.extractLsb' 12 4 == 0x5 || w.extractLsb' 12 4 == 0x9) && w.extractLsb' 0 4 != 0x0

/-- Family 8: a word with `n` in 8, 9, A, B, C, D, F is ignored (R56). -/
def ignoredAlu (w : Word) : Bool :=
  w.extractLsb' 12 4 == 0x8 &&
    ([0x8, 0x9, 0xA, 0xB, 0xC, 0xD, 0xF] : List Nibble).contains (w.extractLsb' 0 4)

/-- Family E: a word with `nn` other than 0x9E and 0xA1 is ignored (R56). -/
def ignoredKey (w : Word) : Bool :=
  w.extractLsb' 12 4 == 0xE && !([0x9E, 0xA1] : List Byte).contains (w.extractLsb' 0 8)

/-- Family F: a word with `nn` outside the nine listed values is ignored (R56). -/
def ignoredMisc (w : Word) : Bool :=
  w.extractLsb' 12 4 == 0xF &&
    !([0x07, 0x0A, 0x15, 0x18, 0x1E, 0x29, 0x33, 0x55, 0x65] : List Byte).contains (w.extractLsb' 0 8)

/-- R56's table of the ignored encodings, family by family. -/
def ignoredWord (w : Word) : Bool :=
  ignoredZero w || ignoredCompare w || ignoredAlu w || ignoredKey w || ignoredMisc w

/-- An instruction is well formed when every field is in the range its encoding has bits for (true by the types) and,
for an ignored encoding, when its word is one of R56's. -/
def Instr.wellFormed : Instr → Bool
  | .ignored w => ignoredWord w
  | _ => true

end Sys2Proof
end

