-- ==== Sys2Proof/Decode.lean ====
section
/-! DEFINITION. The decoder and the encoder (spec/30_encoding.md R50 to R57): fields, the decoder by the top nibble and
then the low byte or nibble, the byte-level decoder, the encoder, the opcode map of R55 as a table, `decodeTableWord`. -/

namespace Sys2Proof

/-! ## Fields (R51) -/

/-- `op = ir[15:12]`. -/
def opOf (w : Word) : Nibble := w.extractLsb' 12 4
/-- `x = ir[11:8]`. -/
def xOf (w : Word) : Nibble := w.extractLsb' 8 4
/-- `y = ir[7:4]`. -/
def yOf (w : Word) : Nibble := w.extractLsb' 4 4
/-- `n = ir[3:0]`. -/
def nOf (w : Word) : Nibble := w.extractLsb' 0 4
/-- `nn = ir[7:0]`. -/
def nnOf (w : Word) : Byte := w.extractLsb' 0 8
/-- `nnn = ir[11:0]`. -/
def nnnOf (w : Word) : Addr := w.extractLsb' 0 12

/-! ## Words of the formats of R52 -/

/-- Format A: `op` and a 12-bit address. -/
def formA (op : Nibble) (nnn : Addr) : Word := (op ++ nnn : BitVec (4 + 12))
/-- Formats I and X: `op`, `x` and the low byte. -/
def formI (op x : Nibble) (nn : Byte) : Word := (op ++ x ++ nn : BitVec (4 + 4 + 8))
/-- Formats R and D: four nibbles. -/
def formR (op x y n : Nibble) : Word := (op ++ x ++ y ++ n : BitVec (4 + 4 + 4 + 4))

/-! ## Decoding (R54, R55, R56, R57) -/

/-- Family 0: the whole word is matched (R54, R57). -/
def decodeZero (w : Word) : Instr :=
  if w = 0x00E0 then .cls else if w = 0x00EE then .ret else .ignored w

/-- Families 5 and 9: `n = 0` or ignored (R54). -/
def decodeCompare (i : Nibble → Nibble → Instr) (w : Word) : Instr :=
  if nOf w = 0 then i (xOf w) (yOf w) else .ignored w

/-- Family 8: the sub-opcode is `n` (R54, R55 rows 10 to 18). -/
def decodeAlu (w : Word) : Instr :=
  match (nOf w).toNat with
  | 0x0 => .ldReg (xOf w) (yOf w)
  | 0x1 => .orReg (xOf w) (yOf w)
  | 0x2 => .andReg (xOf w) (yOf w)
  | 0x3 => .xorReg (xOf w) (yOf w)
  | 0x4 => .addReg (xOf w) (yOf w)
  | 0x5 => .subReg (xOf w) (yOf w)
  | 0x6 => .shr (xOf w) (yOf w)
  | 0x7 => .subnReg (xOf w) (yOf w)
  | 0xE => .shl (xOf w) (yOf w)
  | _ => .ignored w

/-- Family E: the sub-opcode is the whole low byte (R54, R57). -/
def decodeKey (w : Word) : Instr :=
  if nnOf w = 0x9E then .skp (xOf w) else if nnOf w = 0xA1 then .sknp (xOf w) else .ignored w

/-- Family F: the sub-opcode is the whole low byte (R54, R57). -/
def decodeMisc (w : Word) : Instr :=
  if nnOf w = 0x07 then .ldVxDT (xOf w)
  else if nnOf w = 0x0A then .ldVxK (xOf w)
  else if nnOf w = 0x15 then .ldDTVx (xOf w)
  else if nnOf w = 0x18 then .ldSTVx (xOf w)
  else if nnOf w = 0x1E then .addI (xOf w)
  else if nnOf w = 0x29 then .ldF (xOf w)
  else if nnOf w = 0x33 then .ldB (xOf w)
  else if nnOf w = 0x55 then .storeRegs (xOf w)
  else if nnOf w = 0x65 then .loadRegs (xOf w)
  else .ignored w

/-- The decoder, total on all 65536 words (R54): by the top 4 bits, then as the family says. -/
def decode (w : Word) : Instr :=
  match (opOf w).toNat with
  | 0x0 => decodeZero w
  | 0x1 => .jp (nnnOf w)
  | 0x2 => .call (nnnOf w)
  | 0x3 => .seImm (xOf w) (nnOf w)
  | 0x4 => .sneImm (xOf w) (nnOf w)
  | 0x5 => decodeCompare .seReg w
  | 0x6 => .ldImm (xOf w) (nnOf w)
  | 0x7 => .addImm (xOf w) (nnOf w)
  | 0x8 => decodeAlu w
  | 0x9 => decodeCompare .sneReg w
  | 0xA => .ldI (nnnOf w)
  | 0xB => .jpV0 (nnnOf w)
  | 0xC => .rnd (xOf w) (nnOf w)
  | 0xD => .drw (xOf w) (yOf w) (nOf w)
  | 0xE => decodeKey w
  | _ => decodeMisc w

/-- Why a sequence of bytes is no instruction. -/
inductive DecodeError where
  /-- Fewer than the two bytes every instruction has (R50). Raised by `decodeBytes` alone: a fetch always reads two. -/
  | truncated
  deriving DecidableEq, Repr

/-- The word of two consecutive bytes, the first the high byte (R34, R50). -/
def wordOfBytes (hi lo : Byte) : Word := (hi ++ lo : BitVec (8 + 8))

/-- The decoder on bytes: the first two bytes' instruction and the bytes left over (R50), or the reason there is none. -/
def decodeBytes : List Byte → Except DecodeError (Instr × List Byte)
  | hi :: lo :: rest => .ok (decode (wordOfBytes hi lo), rest)
  | _ => .error .truncated

/-! ## Encoding -/

/-- The word of an instruction, from R52's formats and R55's rows. -/
def encode : Instr → Word
  | .cls => 0x00E0
  | .ret => 0x00EE
  | .jp nnn => formA 0x1 nnn
  | .call nnn => formA 0x2 nnn
  | .seImm x nn => formI 0x3 x nn
  | .sneImm x nn => formI 0x4 x nn
  | .seReg x y => formR 0x5 x y 0x0
  | .ldImm x nn => formI 0x6 x nn
  | .addImm x nn => formI 0x7 x nn
  | .ldReg x y => formR 0x8 x y 0x0
  | .orReg x y => formR 0x8 x y 0x1
  | .andReg x y => formR 0x8 x y 0x2
  | .xorReg x y => formR 0x8 x y 0x3
  | .addReg x y => formR 0x8 x y 0x4
  | .subReg x y => formR 0x8 x y 0x5
  | .shr x y => formR 0x8 x y 0x6
  | .subnReg x y => formR 0x8 x y 0x7
  | .shl x y => formR 0x8 x y 0xE
  | .sneReg x y => formR 0x9 x y 0x0
  | .ldI nnn => formA 0xA nnn
  | .jpV0 nnn => formA 0xB nnn
  | .rnd x nn => formI 0xC x nn
  | .drw x y n => formR 0xD x y n
  | .skp x => formI 0xE x 0x9E
  | .sknp x => formI 0xE x 0xA1
  | .ldVxDT x => formI 0xF x 0x07
  | .ldVxK x => formI 0xF x 0x0A
  | .ldDTVx x => formI 0xF x 0x15
  | .ldSTVx x => formI 0xF x 0x18
  | .addI x => formI 0xF x 0x1E
  | .ldF x => formI 0xF x 0x29
  | .ldB x => formI 0xF x 0x33
  | .storeRegs x => formI 0xF x 0x55
  | .loadRegs x => formI 0xF x 0x65
  | .ignored w => w

/-- The first (high) byte of a word (R34). -/
def highByte (w : Word) : Byte := w.extractLsb' 8 8
/-- The second (low) byte of a word (R34). -/
def lowByte (w : Word) : Byte := w.extractLsb' 0 8

/-- The two bytes of an instruction in memory order, high byte first (R34, R50). -/
def encodeBytes (i : Instr) : List Byte := [highByte (encode i), lowByte (encode i)]

/-! ## The opcode map (R55) -/

/-- One row of R55: "the word `w` is this instruction iff `w & mask = match`", with the pattern that names it (R58). -/
structure OpcodeRow where
  pattern : String
  mask : Word
  value : Word
  deriving DecidableEq, Repr

/-- `w & mask = match` (R55). -/
def OpcodeRow.covers (r : OpcodeRow) (w : Word) : Bool := w &&& r.mask == r.value

/-- Rows 1 to 19 of R55. -/
def opcodeRowsLow : List OpcodeRow :=
  [⟨"00E0", 0xFFFF, 0x00E0⟩, ⟨"00EE", 0xFFFF, 0x00EE⟩, ⟨"1NNN", 0xF000, 0x1000⟩, ⟨"2NNN", 0xF000, 0x2000⟩,
   ⟨"3XNN", 0xF000, 0x3000⟩, ⟨"4XNN", 0xF000, 0x4000⟩, ⟨"5XY0", 0xF00F, 0x5000⟩, ⟨"6XNN", 0xF000, 0x6000⟩,
   ⟨"7XNN", 0xF000, 0x7000⟩, ⟨"8XY0", 0xF00F, 0x8000⟩, ⟨"8XY1", 0xF00F, 0x8001⟩, ⟨"8XY2", 0xF00F, 0x8002⟩,
   ⟨"8XY3", 0xF00F, 0x8003⟩, ⟨"8XY4", 0xF00F, 0x8004⟩, ⟨"8XY5", 0xF00F, 0x8005⟩, ⟨"8XY6", 0xF00F, 0x8006⟩,
   ⟨"8XY7", 0xF00F, 0x8007⟩, ⟨"8XYE", 0xF00F, 0x800E⟩, ⟨"9XY0", 0xF00F, 0x9000⟩]

/-- Rows 20 to 34 of R55. -/
def opcodeRowsHigh : List OpcodeRow :=
  [⟨"ANNN", 0xF000, 0xA000⟩, ⟨"BNNN", 0xF000, 0xB000⟩, ⟨"CXNN", 0xF000, 0xC000⟩, ⟨"DXYN", 0xF000, 0xD000⟩,
   ⟨"EX9E", 0xF0FF, 0xE09E⟩, ⟨"EXA1", 0xF0FF, 0xE0A1⟩, ⟨"FX07", 0xF0FF, 0xF007⟩, ⟨"FX0A", 0xF0FF, 0xF00A⟩,
   ⟨"FX15", 0xF0FF, 0xF015⟩, ⟨"FX18", 0xF0FF, 0xF018⟩, ⟨"FX1E", 0xF0FF, 0xF01E⟩, ⟨"FX29", 0xF0FF, 0xF029⟩,
   ⟨"FX33", 0xF0FF, 0xF033⟩, ⟨"FX55", 0xF0FF, 0xF055⟩, ⟨"FX65", 0xF0FF, 0xF065⟩]

/-- The opcode map: the 34 rows of R55, in order. -/
def opcodeRows : List OpcodeRow := opcodeRowsLow ++ opcodeRowsHigh

/-- The pattern that names an instruction (R58); an ignored encoding has none. -/
def Instr.pattern : Instr → Option String
  | .cls => some "00E0"
  | .ret => some "00EE"
  | .jp _ => some "1NNN"
  | .call _ => some "2NNN"
  | .seImm _ _ => some "3XNN"
  | .sneImm _ _ => some "4XNN"
  | .seReg _ _ => some "5XY0"
  | .ldImm _ _ => some "6XNN"
  | .addImm _ _ => some "7XNN"
  | .ldReg _ _ => some "8XY0"
  | .orReg _ _ => some "8XY1"
  | .andReg _ _ => some "8XY2"
  | .xorReg _ _ => some "8XY3"
  | .addReg _ _ => some "8XY4"
  | .subReg _ _ => some "8XY5"
  | .shr _ _ => some "8XY6"
  | .subnReg _ _ => some "8XY7"
  | .shl _ _ => some "8XYE"
  | .sneReg _ _ => some "9XY0"
  | .ldI _ => some "ANNN"
  | .jpV0 _ => some "BNNN"
  | .rnd _ _ => some "CXNN"
  | .drw _ _ _ => some "DXYN"
  | .skp _ => some "EX9E"
  | .sknp _ => some "EXA1"
  | .ldVxDT _ => some "FX07"
  | .ldVxK _ => some "FX0A"
  | .ldDTVx _ => some "FX15"
  | .ldSTVx _ => some "FX18"
  | .addI _ => some "FX1E"
  | .ldF _ => some "FX29"
  | .ldB _ => some "FX33"
  | .storeRegs _ => some "FX55"
  | .loadRegs _ => some "FX65"
  | .ignored _ => none

/-! ## The host's table words -/

/-- The instruction read from a table row's bits `w` (`nbits` of them, numbered as spec/opcode_table.json numbers them:
bit 0 the least significant bit of the one 16-bit word). The word is laid out as the hardware stores it, high byte at the
lower address (R34), and given to `decodeBytes`. -/
def decodeTableWord (nbits w : Nat) : Option Instr :=
  let ir : Word := BitVec.ofNat 16 (w % 2 ^ nbits)
  match decodeBytes [highByte ir, lowByte ir] with
  | .ok (i, _) => some i
  | .error _ => none

end Sys2Proof
end

