-- ==== Sys2Proof/Config.lean ====
section
/-! DEFINITION. What the implementation fixes, the type of its one parameter `GLYPH_TABLE` (spec/00_scope.md R3) and the one free value of the model: the random byte of `CXNN`. -/

namespace Sys2Proof.Config

/-- `MEM_SIZE` (R3): main memory has 4096 bytes. -/
def memSize : Nat := 4096

/-- `LOAD_BASE` (R3): the host's program bytes start at 0x200. -/
def loadBase : Nat := 0x200

/-- `RESET_PC` (R3): the program counter after reset. -/
def resetPC : Addr := 0x200

/-- `LOAD_MAX_OFFSET` (R3, R142, C2): the last offset of `load_byte`'s contract. -/
def loadMaxOffset : Nat := 3071

/-- `GLYPH_STRIDE` (R3, R112): a glyph has 5 bytes. -/
def glyphStride : Nat := 5

/-- The values the parameter `GLYPH_TABLE` takes (R3, R33): 80 bytes, the glyphs of the 16 digits. What seeds memory with a
table takes it as an argument (`State.resetWith`, Machine/Ops.lean). -/
abbrev GlyphTable := Vector Byte 80

/-- FREE VALUE (log entry 4): the byte the `n`-th executed `CXNN` finds at the `rnd` port when the host has presented
none. R101: "any of the 256 values may occur at any execution"; no body, so nothing can be proved of its value. -/
opaque freeRandomByte : Nat → Byte

end Sys2Proof.Config
end

