-- ==== Sys2Proof/Machine/Glyphs.lean ====
section
/-! DEFINITION. The bytes of a glyph table, and the default of the parameter `GLYPH_TABLE` (spec/20_memory.md R33). PRESUMED: the spec
gives the default's 80 bytes from general knowledge (D13, N2; log entry 1); no statement rests on their values. -/

namespace Sys2Proof.Machine

/-- The glyphs of the digits 0 to 7, five bytes each (R33). -/
def glyphsLow : List Byte :=
  [0xF0, 0x90, 0x90, 0x90, 0xF0] ++ [0x20, 0x60, 0x20, 0x20, 0x70] ++
  [0xF0, 0x10, 0xF0, 0x80, 0xF0] ++ [0xF0, 0x10, 0xF0, 0x10, 0xF0] ++
  [0x90, 0x90, 0xF0, 0x10, 0x10] ++ [0xF0, 0x80, 0xF0, 0x10, 0xF0] ++
  [0xF0, 0x80, 0xF0, 0x90, 0xF0] ++ [0xF0, 0x10, 0x20, 0x40, 0x40]

/-- The glyphs of the digits 8 to F, five bytes each (R33). -/
def glyphsHigh : List Byte :=
  [0xF0, 0x90, 0xF0, 0x90, 0xF0] ++ [0xF0, 0x90, 0xF0, 0x10, 0xF0] ++
  [0xF0, 0x90, 0xF0, 0x90, 0x90] ++ [0xE0, 0x90, 0xE0, 0x90, 0xE0] ++
  [0xF0, 0x80, 0x80, 0x80, 0xF0] ++ [0xE0, 0x90, 0x90, 0x90, 0xE0] ++
  [0xF0, 0x80, 0xF0, 0x80, 0xF0] ++ [0xF0, 0x80, 0xF0, 0x80, 0x80]

/-- The default of `GLYPH_TABLE`: the glyph of digit `d` is the bytes `5*d` to `5*d + 4` (R33). -/
def glyphTable : Config.GlyphTable := ⟨(glyphsLow ++ glyphsHigh).toArray, rfl⟩

/-- Byte `a` of a table (R33); past the table's 80 bytes, zero. -/
def tableByte (table : Config.GlyphTable) (a : Nat) : Byte := if h : a < 80 then table[a] else 0

/-- Byte `a` of the default table (R33). -/
def glyphByte (a : Nat) : Byte := tableByte glyphTable a

end Sys2Proof.Machine
end

