-- ==== Sys2Proof/Machine/State.lean ====
section
/-! DEFINITION. The machine's state as plain data (spec/10_state.md R10 to R24), its reset value, and the reasons a step or a host operation can stop. -/

namespace Sys2Proof.Machine

/-- Main memory (R20, R30) as a canonical list of cells: addresses strictly rising, no cell that holds what an unlisted
address reads as (`Memory.wf`, Machine/Ops.lean). -/
abbrev Memory := List Host.Cell

/-- The framebuffer `fb[y][x]` (R19): 32 rows of 64 cells, each on or off. -/
abbrev FrameBuffer := Vector (Vector Bool 64) 32

/-- The state: the nine items of R10, then the model's own three fields for the input ports of a step (R21: inputs, not
state of the block; log entries 3 and 4). -/
structure State where
  /-- Main memory, 4096 bytes (R20). -/
  memory : Memory
  /-- The general registers `V0` to `VF` (R11); `VF` is the flag (R12). -/
  V : Vector Byte 16
  /-- The index register (R13). -/
  I : Addr
  /-- The program counter (R14). -/
  PC : Addr
  /-- The call stack's slots (R15). -/
  stack : Vector Addr 16
  /-- The number of valid stack entries, 0 to 16 (R15). -/
  SP : Fin 17
  /-- The delay timer (R18). -/
  DT : Byte
  /-- The sound timer (R18). -/
  ST : Byte
  /-- The framebuffer (R19). -/
  fb : FrameBuffer
  /-- MODEL'S OWN: the key vector at the key port, bit `k` for key `k`, 1 = down (R130; log entry 3). -/
  keys : BitVec 16
  /-- MODEL'S OWN: the byte the host presents at the `rnd` port, if it presents one (R101, R140; log entry 4). -/
  rnd : Option Byte
  /-- MODEL'S OWN: how many random bytes have been consumed; it numbers the free values (R101; log entry 4). -/
  draws : Nat
  deriving DecidableEq, Repr

/-- Why a step can stop with a fault: it cannot. "The core never produces a fatal/unrecoverable error during normal
stepping" (R150); nobody raises a fault, which is exact, neither safe nor unsafe. -/
inductive Fault where
  deriving DecidableEq, Repr

/-- Why the model refuses. No instruction that has its meaning refuses (R150). -/
inductive Refusal where
  /-- Raised by `exec` alone, for an instruction that has no meaning yet (none at present); safe: nothing is provable of it. -/
  | notModelled (mnemonic : String)
  /-- Raised by the host operation `loadByte` for an offset above 3071, outside the contract (R142, U9, D15); safe: the
  host has no such move. -/
  | loadOffsetOutOfContract
  /-- Raised by `history` for an operation before the first reset (R171, U12, D22); safe: the state is not defined there. -/
  | operationBeforeReset
  deriving DecidableEq, Repr

/-- The machine right after reset (R24, R170) with the default of the parameter `GLYPH_TABLE` (`State.resetWith` of
Machine/Ops.lean takes any table; log entry 1): everything zero, the glyph table in low memory (an unlisted address reads
as its reset contents, so memory lists nothing), `PC = 0x200`. The input ports: all keys up, no random byte presented
(log entries 3 and 4). -/
def State.reset : State where
  memory := []
  V := Vector.replicate 16 0
  I := 0
  PC := Config.resetPC
  stack := Vector.replicate 16 0
  SP := 0
  DT := 0
  ST := 0
  fb := Vector.replicate 32 (Vector.replicate 64 false)
  keys := 0
  rnd := none
  draws := 0

end Sys2Proof.Machine
end

