-- ==== Sys2Proof/Machine/Ops.lean ====
section
/-! DEFINITION. The named operations over memory, registers, the stack, the program counter, the framebuffer and the input
ports. Taking an exception and returning from one have no operation here: the hardware has neither (spec/60_exceptions.md
R150, R152, R154, R155). -/

namespace Sys2Proof.Machine

/-! ## Memory as data -/

/-- What an address that no cell lists reads as: its contents after `State.reset` (R24, R33): the default glyph table below 80,
else 0. A machine with another table lists the bytes in which its table differs (`State.resetWith`; log entry 2). -/
def unlisted (a : Nat) : Byte := if a < 80 then glyphByte a else 0

/-- The byte at address `a`. -/
def Memory.read : Memory → Nat → Byte
  | [], a => unlisted a
  | (k, b) :: m, a => if k = a then b else Memory.read m a

/-- The cell `(a, b)` put in its place among cells of rising addresses. -/
def Memory.place : Memory → Nat → Byte → Memory
  | [], a, b => [(a, b)]
  | (k, c) :: m, a, b => if a < k then (a, b) :: (k, c) :: m else (k, c) :: Memory.place m a b

/-- Memory without the cell of address `a`. -/
def Memory.drop (m : Memory) (a : Nat) : Memory := m.filter (fun c => c.1 != a)

/-- Byte `b` written at address `a`: the old cell goes, and a new one comes unless `b` is what an unlisted address reads as. -/
def Memory.write (m : Memory) (a : Nat) (b : Byte) : Memory :=
  if b = unlisted a then Memory.drop m a else Memory.place (Memory.drop m a) a b

/-- The canonical form: addresses strictly rising and below 4096 (R30), no cell that holds what an unlisted address reads as. -/
abbrev Memory.wf (m : Memory) : Prop :=
  m.Pairwise (fun c d => c.1 < d.1) ∧ ∀ c ∈ m, c.1 < Config.memSize ∧ c.2 ≠ unlisted c.1

/-! ## Memory accesses (R31) -/

/-- `MemRead(a, 1)`: the byte at `a mod 4096` (R5, R31). -/
def State.memRead (s : State) (a : Nat) : Byte := Memory.read s.memory (a % Config.memSize)

/-- `MemWrite(a, 1, b)`: byte `b` at `a mod 4096` (R5, R31). -/
def State.memWrite (s : State) (a : Nat) (b : Byte) : State :=
  { s with memory := Memory.write s.memory (a % Config.memSize) b }

/-- Fetch: the bytes at `PC` and `(PC + 1) mod 4096`, the first the high byte (R71, R34). -/
def fetch (s : State) : Word := wordOfBytes (s.memRead s.PC.toNat) (s.memRead (s.PC.toNat + 1))

/-! ## The glyph table seeded (R24, R33) -/

/-- The cells of memory that holds `bytes` from address `a` on and its `unlisted` contents elsewhere: those bytes that differ
from what an unlisted address reads as. -/
def Memory.seed : Nat → List Byte → Memory
  | _, [] => []
  | a, b :: bytes => if b = unlisted a then Memory.seed (a + 1) bytes else (a, b) :: Memory.seed (a + 1) bytes

/-- The machine right after reset, of the chip whose parameter `GLYPH_TABLE` is `table`: the table stands in memory from
address 0, `GLYPH_BASE` (R3, R24, R33). `State.reset` is that of the default table (`State.resetWith_default`,
Laws/Reset.lean). -/
def State.resetWith (table : Config.GlyphTable) : State := { State.reset with memory := Memory.seed 0 table.toList }

/-! ## General registers (R11) -/

/-- `V[x]`. -/
def State.reg (s : State) (x : Nibble) : Byte := s.V[x.toNat]'x.isLt

/-- `V[x] <- b`. -/
def State.writeReg (s : State) (x : Nibble) (b : Byte) : State := { s with V := s.V.set x.toNat b x.isLt }

/-- The index of `VF`, the flag register (R12). -/
def flagReg : Nibble := 15

/-- `I <- a` (R13). -/
def State.writeI (s : State) (a : Addr) : State := { s with I := a }

/-- `DT <- b` (R18). -/
def State.writeDT (s : State) (b : Byte) : State := { s with DT := b }

/-- `ST <- b` (R18). -/
def State.writeST (s : State) (b : Byte) : State := { s with ST := b }

/-! ## The program counter (R73, R74, R76) -/

/-- `pc <- a`; the 12-bit type is the mask of R74. -/
def State.jump (s : State) (a : Addr) : State := { s with PC := a }

/-- The default advance `PC + 2`, modulo 4096 (R73, R74). -/
def State.advance (s : State) : State := s.jump (s.PC + 2)

/-- `skip_if(c)`: `PC + 4` if `c`, else the default advance (R76). -/
def State.skipIf (s : State) (c : Bool) : State := if c then s.jump (s.PC + 4) else s.advance

/-! ## The stack controller (R15, R16, R17) -/

/-- `stack[k]`. -/
def State.slot (s : State) (k : Nibble) : Addr := s.stack[k.toNat]'k.isLt

/-- `push(a)`: dropped when the stack is full (R16). -/
def State.push (s : State) (a : Addr) : State :=
  if h : s.SP.val < 16 then
    { s with stack := s.stack.set s.SP.val a h, SP := ⟨s.SP.val + 1, by omega⟩ }
  else s

/-- The slot `pop` reads: `SP - 1`, and slot 0 on an empty stack (R17, D3). -/
def popIndex (sp : Fin 17) : Fin 16 := ⟨sp.val - 1, by omega⟩

/-- The value `pop()` returns (R17). -/
def State.top (s : State) : Addr := s.stack[(popIndex s.SP).val]'(popIndex s.SP).isLt

/-- `pop()`'s effect on the state: `SP` down by one, floored at 0; no slot changes (R17). -/
def State.pop (s : State) : State := { s with SP := ⟨s.SP.val - 1, by omega⟩ }

/-! ## The framebuffer (R19) -/

/-- The cell `fb[y][x]`. -/
def FrameBuffer.get (fb : FrameBuffer) (x : BitVec 6) (y : BitVec 5) : Bool :=
  (fb[y.toNat]'y.isLt)[x.toNat]'x.isLt

/-- `fb[y][x] <- b`. -/
def FrameBuffer.put (fb : FrameBuffer) (x : BitVec 6) (y : BitVec 5) (b : Bool) : FrameBuffer :=
  fb.set y.toNat ((fb[y.toNat]'y.isLt).set x.toNat b x.isLt) y.isLt

/-- The framebuffer with every cell off. -/
def FrameBuffer.clear : FrameBuffer := Vector.replicate 32 (Vector.replicate 64 false)

/-- The state with its framebuffer replaced. -/
def State.withFb (s : State) (fb : FrameBuffer) : State := { s with fb := fb }

/-- The cell `fb[y][x]` of the state. -/
def State.pixel (s : State) (x : BitVec 6) (y : BitVec 5) : Bool := FrameBuffer.get s.fb x y

/-! ## The input ports (R21, R130, R101, R140) -/

/-- The host presents a key vector and a random byte for the coming step (R140, R143). -/
def State.present (s : State) (keys : BitVec 16) (rnd : Byte) : State := { s with keys := keys, rnd := some rnd }

/-- The byte at the `rnd` port: the one the host presents, else a free value (R101; log entry 4). -/
def State.randomByte (s : State) : Byte :=
  match s.rnd with
  | some b => b
  | none => Config.freeRandomByte s.draws

/-- One random byte is consumed: the next one is a fresh value (R101; log entry 4). -/
def State.consumeRandom (s : State) : State := { s with rnd := none, draws := s.draws + 1 }

end Sys2Proof.Machine
end

