-- ==== Sys2Proof/Machine/Flags.lean ====
section
/-! DEFINITION. Every flag computation of the spec (spec/10_state.md R12, spec/42_alu.md R96 to R100) and the one operation
that writes a result and then the flag (R77(c)). The collision flag of R122 is computed while drawing (Machine/Display.lean). -/

namespace Sys2Proof.Machine

/-- Carry out of `a + b`: the unreduced sum exceeds 255 (R96). -/
def carryOut (a b : Byte) : Bool := decide (a.toNat + b.toNat > 255)

/-- The subtraction flag: `a` strictly greater than `b` (R97, R99, D6; clear when they are equal). -/
def strictlyGreater (a b : Byte) : Bool := decide (a.toNat > b.toNat)

/-- The bit a right shift drops: old bit 0 (R98). -/
def bitShiftedRight (a : Byte) : Bool := a.getLsbD 0

/-- The bit a left shift drops: old bit 7 (R100). -/
def bitShiftedLeft (a : Byte) : Bool := a.getLsbD 7

/-- The value of a flag in `VF`: 0 or 1 (R12). -/
def flagByte (c : Bool) : Byte := if c then 1 else 0

/-- `VF <- c` (R12). -/
def State.writeFlag (s : State) (c : Bool) : State := s.writeReg flagReg (flagByte c)

/-- The result into `V[x]`, then the flag into `VF`: with `x = 15` the flag remains (R77(c), D4). -/
def State.writeResultFlag (s : State) (x : Nibble) (v : Byte) (c : Bool) : State := (s.writeReg x v).writeFlag c

end Sys2Proof.Machine
end

