-- ==== Sys2Proof/Machine/Operands.lean ====
section
/-! DEFINITION. Operand assembly (spec/30_encoding.md R53): effective addresses, ranges of registers, glyph addresses, decimal
digits, key indices, and the framebuffer address generator (spec/44_display.md R120). -/

namespace Sys2Proof.Machine

/-! ## Index and memory operands (R53, R110 to R115) -/

/-- The address `(I + k) mod 4096` of the only addressing mode (43_index_memory.md; R31). -/
def State.effective (s : State) (k : Nat) : Nat := (s.I.toNat + k) % Config.memSize

/-- `(I + v) mod 4096` (R111). -/
def indexPlus (i : Addr) (v : Byte) : Addr := BitVec.ofNat 12 (i.toNat + v.toNat)

/-- `v * 5`, the address of a glyph (R112); at most 1275. -/
def glyphAddr (v : Byte) : Addr := BitVec.ofNat 12 (v.toNat * Config.glyphStride)

/-- `V0 + nnn`, reduced modulo 4096 by the end-of-step mask (R87, R74). -/
def indexedTarget (v : Byte) (nnn : Addr) : Addr := BitVec.ofNat 12 (v.toNat + nnn.toNat)

/-- The hundreds digit of a byte (R113). -/
def hundreds (v : Byte) : Byte := BitVec.ofNat 8 (v.toNat / 100)

/-- The tens digit of a byte (R113). -/
def tens (v : Byte) : Byte := BitVec.ofNat 8 (v.toNat / 10 % 10)

/-- The ones digit of a byte (R113). -/
def ones (v : Byte) : Byte := BitVec.ofNat 8 (v.toNat % 10)

/-- `V[0]` to `V[count - 1]` stored at `I`, `I + 1`, …, ascending (R114). -/
def State.storeBlock (s : State) (count : Nat) : State :=
  (List.range count).foldl (fun t k => t.memWrite (t.effective k) (t.reg (BitVec.ofNat 4 k))) s

/-- `V[0]` to `V[count - 1]` loaded from `I`, `I + 1`, …, ascending (R115). -/
def State.loadBlock (s : State) (count : Nat) : State :=
  (List.range count).foldl (fun t k => t.writeReg (BitVec.ofNat 4 k) (t.memRead (t.effective k))) s

/-! ## Keys (R130 to R133) -/

/-- Is the key that the full byte `v` names down? An index of 16 or more names a key that is not down (R131). -/
def keyDown (keys : BitVec 16) (v : Byte) : Bool := decide (v.toNat < 16) && keys.getLsbD v.toNat

/-- The least key that is down, if one is (R133). -/
def firstKeyDown (keys : BitVec 16) : Option Nat := (List.range 16).find? (fun k => keys.getLsbD k)

/-! ## The framebuffer address generator (R120) -/

/-- The column `(V[x] + c) mod 64` (R120). -/
def columnOf (ox : Byte) (c : Nat) : BitVec 6 := BitVec.ofNat 6 (ox.toNat + c)

/-- The row `(V[y] + r) mod 32` (R120). -/
def rowOf (oy : Byte) (r : Nat) : BitVec 5 := BitVec.ofNat 5 (oy.toNat + r)

/-- The linear cell address `A = py[4:0] ++ px[5:0]` (R120, D16). -/
def linearCell (px : BitVec 6) (py : BitVec 5) : BitVec 11 := py ++ px

end Sys2Proof.Machine
end

