-- ==== Sys2Proof/Machine/Alu.lean ====
section
/-! DEFINITION. Register loads, arithmetic, logic, shifts, random (spec/42_alu.md R90 to R101). Operands are read from the state before the step (R77(b)). -/

namespace Sys2Proof.Machine

/-- `6XNN` LD: `Vx = nn` (R90). -/
def execLdImm (x : Nibble) (nn : Byte) (s : State) : Host.Outcome State Fault Refusal :=
  .next (s.writeReg x nn).advance

/-- `7XNN` ADD: `Vx = (Vx + nn) mod 256`, no flag (R91, D7). -/
def execAddImm (x : Nibble) (nn : Byte) (s : State) : Host.Outcome State Fault Refusal :=
  .next (s.writeReg x (s.reg x + nn)).advance

/-- `8XY0` LD: `Vx = Vy` (R92). -/
def execLdReg (x y : Nibble) (s : State) : Host.Outcome State Fault Refusal :=
  .next (s.writeReg x (s.reg y)).advance

/-- `8XY1` OR, no flag (R93, D7). -/
def execOrReg (x y : Nibble) (s : State) : Host.Outcome State Fault Refusal :=
  .next (s.writeReg x (s.reg x ||| s.reg y)).advance

/-- `8XY2` AND, no flag (R94, D7). -/
def execAndReg (x y : Nibble) (s : State) : Host.Outcome State Fault Refusal :=
  .next (s.writeReg x (s.reg x &&& s.reg y)).advance

/-- `8XY3` XOR, no flag (R95, D7). -/
def execXorReg (x y : Nibble) (s : State) : Host.Outcome State Fault Refusal :=
  .next (s.writeReg x (s.reg x ^^^ s.reg y)).advance

/-- `8XY4` ADD: the sum modulo 256, then `VF` = carry (R96, R77(c)). -/
def execAddReg (x y : Nibble) (s : State) : Host.Outcome State Fault Refusal :=
  .next (s.writeResultFlag x (s.reg x + s.reg y) (carryOut (s.reg x) (s.reg y))).advance

/-- `8XY5` SUB: `Vx - Vy` modulo 256, then `VF` = `Vx > Vy` (R97, D6, R77(c)). -/
def execSubReg (x y : Nibble) (s : State) : Host.Outcome State Fault Refusal :=
  .next (s.writeResultFlag x (s.reg x - s.reg y) (strictlyGreater (s.reg x) (s.reg y))).advance

/-- `8XY6` SHR: `Vx >> 1`, then `VF` = old bit 0; `y` is not used (R98, D5, R77(c)). -/
def execShr (x _y : Nibble) (s : State) : Host.Outcome State Fault Refusal :=
  .next (s.writeResultFlag x (s.reg x >>> 1) (bitShiftedRight (s.reg x))).advance

/-- `8XY7` SUBN: `Vy - Vx` modulo 256, then `VF` = `Vy > Vx` (R99, R77(c)). -/
def execSubnReg (x y : Nibble) (s : State) : Host.Outcome State Fault Refusal :=
  .next (s.writeResultFlag x (s.reg y - s.reg x) (strictlyGreater (s.reg y) (s.reg x))).advance

/-- `8XYE` SHL: `Vx << 1` modulo 256, then `VF` = old bit 7; `y` is not used (R100, D5, R77(c)). -/
def execShl (x _y : Nibble) (s : State) : Host.Outcome State Fault Refusal :=
  .next (s.writeResultFlag x (s.reg x <<< 1) (bitShiftedLeft (s.reg x))).advance

/-- `CXNN` RND: `Vx = nn & rnd`; one random byte is consumed (R101, D12; log entry 4). -/
def execRnd (x : Nibble) (nn : Byte) (s : State) : Host.Outcome State Fault Refusal :=
  .next ((s.writeReg x (nn &&& s.randomByte)).consumeRandom).advance

end Sys2Proof.Machine
end

