-- ==== Sys2Proof/Machine/Control.lean ====
section
/-! DEFINITION. Control flow (spec/41_control_flow.md R80 to R87) and the ignored encodings (spec/40_step_cycle.md R75). -/

namespace Sys2Proof.Machine

/-- `00EE` RET: the popped value plus 2 into `PC` (R80, R17, D2, D3). -/
def execRet (s : State) : Host.Outcome State Fault Refusal :=
  .next (s.pop.jump (s.top + 2))

/-- `1NNN` JP: `PC = nnn` (R81). -/
def execJp (nnn : Addr) (s : State) : Host.Outcome State Fault Refusal :=
  .next (s.jump nnn)

/-- `2NNN` CALL: the call's own address pushed (dropped when the stack is full), then the jump in either case (R82, R16, D26). -/
def execCall (nnn : Addr) (s : State) : Host.Outcome State Fault Refusal :=
  .next ((s.push s.PC).jump nnn)

/-- `3XNN` SE: skip if `Vx = nn` (R83). -/
def execSeImm (x : Nibble) (nn : Byte) (s : State) : Host.Outcome State Fault Refusal :=
  .next (s.skipIf (decide (s.reg x = nn)))

/-- `4XNN` SNE: skip if `Vx != nn` (R84). -/
def execSneImm (x : Nibble) (nn : Byte) (s : State) : Host.Outcome State Fault Refusal :=
  .next (s.skipIf (decide (s.reg x ≠ nn)))

/-- `5XY0` SE: skip if `Vx = Vy` (R85). -/
def execSeReg (x y : Nibble) (s : State) : Host.Outcome State Fault Refusal :=
  .next (s.skipIf (decide (s.reg x = s.reg y)))

/-- `9XY0` SNE: skip if `Vx != Vy` (R86). -/
def execSneReg (x y : Nibble) (s : State) : Host.Outcome State Fault Refusal :=
  .next (s.skipIf (decide (s.reg x ≠ s.reg y)))

/-- `BNNN` JP V0: `PC = V0 + nnn`, the mask after the sum (R87). -/
def execJpV0 (nnn : Addr) (s : State) : Host.Outcome State Fault Refusal :=
  .next (s.jump (indexedTarget (s.reg 0) nnn))

/-- An ignored encoding: nothing but the default advance (R75, R56). -/
def execIgnored (_w : Word) (s : State) : Host.Outcome State Fault Refusal :=
  .next s.advance

end Sys2Proof.Machine
end

