-- ==== Sys2Proof/Machine/Display.lean ====
section
/-! DEFINITION. The display: clear and the sprite rasterizer (spec/44_display.md R120 to R124). -/

namespace Sys2Proof.Machine

/-- One pixel of a sprite at the cell of column `c` and row `r`: a 0 bit leaves the cell, a 1 bit inverts it, and a cell
that was 1 sets the collision (R122). -/
def drawPixel (ox oy : Byte) (r c : Nat) (bit : Bool) (p : FrameBuffer × Bool) : FrameBuffer × Bool :=
  if bit then
    (FrameBuffer.put p.1 (columnOf ox c) (rowOf oy r) (!FrameBuffer.get p.1 (columnOf ox c) (rowOf oy r)),
      p.2 || FrameBuffer.get p.1 (columnOf ox c) (rowOf oy r))
  else p

/-- Row `r` of a sprite: column `c` is bit `7 - c` of its byte (R122). -/
def drawRow (ox oy : Byte) (r : Nat) (b : Byte) (p : FrameBuffer × Bool) : FrameBuffer × Bool :=
  (List.range 8).foldl (fun q c => drawPixel ox oy r c (b.getLsbD (7 - c)) q) p

/-- The sprite of `rows` rows, row `r` the byte at `I + r`, drawn from the latched origin; the framebuffer after it and
whether any cell went from 1 to 0 (R122). -/
def drawSprite (s : State) (ox oy : Byte) (rows : Nat) : FrameBuffer × Bool :=
  (List.range rows).foldl (fun p r => drawRow ox oy r (s.memRead (s.effective r)) p) (s.fb, false)

/-- `00E0` CLS: every cell off (R121). -/
def execCls (s : State) : Host.Outcome State Fault Refusal :=
  .next (s.withFb FrameBuffer.clear).advance

/-- `DXYN` DRW: the sprite drawn, then `VF` = collision (R122, D4); `n = 0` is a no-operation that leaves `VF` (R124, D8). -/
def execDrw (x y n : Nibble) (s : State) : Host.Outcome State Fault Refusal :=
  if n = 0 then .next s.advance
  else
    .next (((s.withFb (drawSprite s (s.reg x) (s.reg y) n.toNat).1).writeFlag
      (drawSprite s (s.reg x) (s.reg y) n.toNat).2).advance)

end Sys2Proof.Machine
end

