-- ==== Sys2Proof/Machine/IndexMemory.lean ====
section
/-! DEFINITION. Index register, glyph address, BCD, register block store and load (spec/43_index_memory.md R110 to R115). None changes `I` but the first three (D11). -/

namespace Sys2Proof.Machine

/-- `ANNN` LD I: `I = nnn` (R110). -/
def execLdI (nnn : Addr) (s : State) : Host.Outcome State Fault Refusal :=
  .next (s.writeI nnn).advance

/-- `FX1E` ADD I: `I = (I + Vx) mod 4096`, no flag (R111, D7). -/
def execAddI (x : Nibble) (s : State) : Host.Outcome State Fault Refusal :=
  .next (s.writeI (indexPlus s.I (s.reg x))).advance

/-- `FX29` LD F: `I = Vx * 5`, the whole byte (R112, D23). -/
def execLdF (x : Nibble) (s : State) : Host.Outcome State Fault Refusal :=
  .next (s.writeI (glyphAddr (s.reg x))).advance

/-- `FX33` LD B: the decimal digits of `Vx`, hundreds first, at `I`, `I + 1`, `I + 2`, each address wrapping (R113, D11). -/
def execLdB (x : Nibble) (s : State) : Host.Outcome State Fault Refusal :=
  .next (((s.memWrite (s.effective 0) (hundreds (s.reg x))).memWrite (s.effective 1) (tens (s.reg x))).memWrite
    (s.effective 2) (ones (s.reg x))).advance

/-- `FX55` LD [I]: `V0` to `Vx` inclusive stored from `I` (R114, D11). -/
def execStoreRegs (x : Nibble) (s : State) : Host.Outcome State Fault Refusal :=
  .next (s.storeBlock (x.toNat + 1)).advance

/-- `FX65` LD Vx, [I]: `V0` to `Vx` inclusive loaded from `I` (R115, D11). -/
def execLoadRegs (x : Nibble) (s : State) : Host.Outcome State Fault Refusal :=
  .next (s.loadBlock (x.toNat + 1)).advance

end Sys2Proof.Machine
end

