-- ==== Sys2Proof/Machine/KeysTimers.lean ====
section
/-! DEFINITION. Key input and timer access (spec/45_keys_timers.md R131 to R136). The key vector is the one at the key port in this step (R130). -/

namespace Sys2Proof.Machine

/-- `EX9E` SKP: skip if key `Vx` is down (R131). -/
def execSkp (x : Nibble) (s : State) : Host.Outcome State Fault Refusal :=
  .next (s.skipIf (keyDown s.keys (s.reg x)))

/-- `EXA1` SKNP: skip if key `Vx` is not down, so also for `Vx >= 16` (R132, D10). -/
def execSknp (x : Nibble) (s : State) : Host.Outcome State Fault Refusal :=
  .next (s.skipIf (!keyDown s.keys (s.reg x)))

/-- `FX07` LD Vx, DT (R134). -/
def execLdVxDT (x : Nibble) (s : State) : Host.Outcome State Fault Refusal :=
  .next (s.writeReg x s.DT).advance

/-- `FX0A` LD Vx, K: the least key down into `Vx`; with none down nothing changes and `PC` stays (R133, R73). -/
def execLdVxK (x : Nibble) (s : State) : Host.Outcome State Fault Refusal :=
  match firstKeyDown s.keys with
  | some k => .next (s.writeReg x (BitVec.ofNat 8 k)).advance
  | none => .next (s.jump s.PC)

/-- `FX15` LD DT, Vx (R135). -/
def execLdDTVx (x : Nibble) (s : State) : Host.Outcome State Fault Refusal :=
  .next (s.writeDT (s.reg x)).advance

/-- `FX18` LD ST, Vx (R136). -/
def execLdSTVx (x : Nibble) (s : State) : Host.Outcome State Fault Refusal :=
  .next (s.writeST (s.reg x)).advance

end Sys2Proof.Machine
end

