-- ==== Sys2Proof/Machine/Step.lean ====
section
/-! DEFINITION. One step: fetch, decode, execute (spec/40_step_cycle.md R70 to R74), on the key vector and the random byte at the input ports. -/

namespace Sys2Proof.Machine

/-- One fetch/decode/execute cycle (R70): the whole word is fetched and decoded before anything is executed (R72). -/
def step (s : State) : Host.Outcome State Fault Refusal := exec (decode (fetch s)) s

/-- `s` with the instruction of a table row's bits `w` stored where `step` fetches next: the high byte at `PC`, the low
byte at `PC + 1` (R71, R34). The machine fetches at its program counter, so nothing else is set. -/
def State.withFetchWord (s : State) (nbits w : Nat) : State :=
  let ir : Word := BitVec.ofNat 16 (w % 2 ^ nbits)
  (s.memWrite s.PC.toNat (highByte ir)).memWrite (s.PC.toNat + 1) (lowByte ir)

end Sys2Proof.Machine
end

