-- ==== Sys2Proof/Machine/HostOps.lean ====
section
/-! DEFINITION. The block's interface (spec/46_host_operations.md R140 to R149): the four state-changing operations, the two
queries, sequences of operations and histories that begin with a reset. -/

namespace Sys2Proof.Machine

/-- `load(offset, byte)`: one byte at `0x200 + offset` (R142); an offset above 3071 is outside the contract and refused
(C2, D15, U9; log entry 8). -/
def loadByte (offset : BitVec 12) (b : Byte) (s : State) : Host.Outcome State Fault Refusal :=
  if offset.toNat ≤ Config.loadMaxOffset then .next (s.memWrite (Config.loadBase + offset.toNat) b)
  else .refused .loadOffsetOutOfContract

/-- A timer one tick later: down by one, floored at 0 (R144, R18). -/
def countDown (t : Byte) : Byte := if t = 0 then 0 else t - 1

/-- `tick()`: both timers down by one, floored at 0, and nothing else (R144). -/
def tick (s : State) : State := (s.writeDT (countDown s.DT)).writeST (countDown s.ST)

/-- `step(keys, rnd)`: one step on the key vector and the random byte the host presents with it (R143, R70). -/
def hostStep (keys : BitVec 16) (rnd : Byte) (s : State) : Host.Outcome State Fault Refusal := step (s.present keys rnd)

/-- The sound query: `ST > 0` (R145). -/
def isSoundActive (s : State) : Bool := s.ST != 0

/-- The pixel query: `fb[y][x]`, coordinates 6 and 5 bits wide so that none is out of range (R146, D16). -/
def pixelAt (s : State) (x : BitVec 6) (y : BitVec 5) : Bool := s.pixel x y

/-- The state-changing operations of the host (R140). -/
inductive HostOp where
  /-- `construct()` (R141). -/
  | reset
  /-- `load_byte(offset, byte)` (R142). -/
  | load (offset : BitVec 12) (byte : Byte)
  /-- `step(keys, rnd)` (R143). -/
  | step (keys : BitVec 16) (rnd : Byte)
  /-- `decrease_timers()` (R144). -/
  | tick
  deriving DecidableEq, Repr

/-- One operation of the host on the state (R140, R147). A reset gives the reset state from any state (R141, R171), with the
chip's glyph table, the parameter `table` (R3, R33, D13; log entry 1); the input ports are the host's own, so it leaves them and
the count of consumed random bytes as they are (log entries 3, 4). -/
def applyHostOp (table : Config.GlyphTable) (op : HostOp) (s : State) : Host.Outcome State Fault Refusal :=
  match op with
  | .reset => .next { State.resetWith table with keys := s.keys, rnd := s.rnd, draws := s.draws }
  | .load offset b => loadByte offset b s
  | .step keys rnd => hostStep keys rnd s
  | .tick => .next (tick s)

/-- A sequence of operations, each applied to the state the one before left (R147). -/
def runHost (table : Config.GlyphTable) : List HostOp → State → Host.Outcome State Fault Refusal
  | [], s => .next s
  | op :: ops, s =>
    match applyHostOp table op s with
    | .next t => runHost table ops t
    | .fault f => .fault f
    | .refused r => .refused r

/-- The history of a machine with the glyph table `table`: reset first (R147, R149, R171); before the first reset no operation is defined (U12, D22). -/
def history (table : Config.GlyphTable) : List HostOp → Host.Outcome State Fault Refusal
  | .reset :: ops => runHost table ops (State.resetWith table)
  | _ => .refused .operationBeforeReset

end Sys2Proof.Machine
end

