-- ==== Sys2Proof/Safety.lean ====
section
/-! DEFINITION. The terms statements are made in: what two states agree on, read through the machine's own accessors, how the
program counter moved, the invariant of reachable states, a host that keeps its contract, the end of a run. -/

namespace Sys2Proof.Safety

open Sys2Proof.Machine

/-- Every general register, `VF` among them, holds what it held. -/
def SameRegs (s t : State) : Prop := ∀ r : Nibble, t.reg r = s.reg r

/-- Every byte of memory reads as it read. -/
def SameMemory (s t : State) : Prop := ∀ a : Nat, t.memRead a = s.memRead a

/-- The stack pointer and every slot hold what they held. -/
def SameStack (s t : State) : Prop := t.SP = s.SP ∧ ∀ k : Nibble, t.slot k = s.slot k

/-- Every cell of the framebuffer is as it was. -/
def SameDisplay (s t : State) : Prop := ∀ (px : BitVec 6) (py : BitVec 5), t.pixel px py = s.pixel px py

/-- Both timers hold what they held. -/
def SameTimers (s t : State) : Prop := t.DT = s.DT ∧ t.ST = s.ST

/-- The key port and the random port are as they were. -/
def SamePorts (s t : State) : Prop := t.keys = s.keys ∧ t.rnd = s.rnd ∧ t.draws = s.draws

/-- Everything but the general registers and the program counter is unchanged. -/
def OnlyRegs (s t : State) : Prop :=
  t.I = s.I ∧ SameMemory s t ∧ SameStack s t ∧ SameDisplay s t ∧ SameTimers s t ∧ SamePorts s t

/-- Everything but the program counter is unchanged. -/
def OnlyPC (s t : State) : Prop := SameRegs s t ∧ OnlyRegs s t

/-- Everything but the index register and the program counter is unchanged. -/
def OnlyIndex (s t : State) : Prop :=
  SameRegs s t ∧ SameMemory s t ∧ SameStack s t ∧ SameDisplay s t ∧ SameTimers s t ∧ SamePorts s t

/-- Everything but memory and the program counter is unchanged. -/
def OnlyMemory (s t : State) : Prop :=
  SameRegs s t ∧ t.I = s.I ∧ SameStack s t ∧ SameDisplay s t ∧ SameTimers s t ∧ SamePorts s t

/-- Everything but the stack and the program counter is unchanged. -/
def OnlyStack (s t : State) : Prop :=
  SameRegs s t ∧ t.I = s.I ∧ SameMemory s t ∧ SameDisplay s t ∧ SameTimers s t ∧ SamePorts s t

/-- The program counter moved forward by `n`, modulo 4096 (R74). -/
def PCPlus (n : Nat) (s t : State) : Prop := t.PC.toNat = (s.PC.toNat + n) % 4096

/-- The program counter moved as a conditional skip moves it (R76, R74). -/
def PCSkips (c : Prop) (s t : State) : Prop := (c → PCPlus 4 s t) ∧ (¬ c → PCPlus 2 s t)

/-- Key `v` is down at the key port: `v` names one of the 16 keys and its bit is set (R130, R131). -/
abbrev KeyIsDown (s : State) (v : Byte) : Prop := v.toNat < 16 ∧ s.keys.getLsbD v.toNat = true

/-- The invariant of the reachable states: memory is in its canonical form. (R23's bounds on `PC`, `I`, `SP`, the stack
slots and the bytes hold by the types.) -/
def StateInv (s : State) : Prop := Memory.wf s.memory

/-- An operation inside the host's contract: a load's offset is at most 3071 (R142, R148). -/
def WithinContract : HostOp → Prop
  | .load offset _ => offset.toNat ≤ 3071
  | _ => True

/-- The end of a run: a fixed point of the step for every key vector and random byte (R177, D21). -/
def EndOfRun (s : State) : Prop :=
  ∀ (keys : BitVec 16) (rnd : Byte), hostStep keys rnd s = .next (s.present keys rnd)

/-- The bit that a sprite of `n` rows drawn from origin `(ox, oy)` has for the cell `(px, py)`: the cell is column `c` and row
`r` of the sprite, counted from the origin around the screen's edges, and bit `7 - c` of the byte at `I + r` is set
(R120, R122). -/
def spriteBit (s : State) (ox oy : Byte) (n : Nat) (px : BitVec 6) (py : BitVec 5) : Prop :=
  ∃ r c : Nat, r < n ∧ c < 8 ∧ px.toNat = (ox.toNat + c) % 64 ∧ py.toNat = (oy.toNat + r) % 32 ∧
    (s.memRead (s.I.toNat + r)).getLsbD (7 - c) = true

/-- The nine items of R10 agree: the architectural state, without the model's own fields for the input ports. -/
def SameArch (s t : State) : Prop :=
  t.memory = s.memory ∧ t.V = s.V ∧ t.I = s.I ∧ t.PC = s.PC ∧ t.stack = s.stack ∧ t.SP = s.SP ∧ t.DT = s.DT ∧
    t.ST = s.ST ∧ t.fb = s.fb

/-- A result of value `v` in `V[x]` and then a flag `c` in `VF`: with `x = 15` the flag is what remains (R77(c), D4); no other
register changes, nothing but registers and the program counter does, and the step advances by 2. -/
def ResultAndFlag (s t : State) (x : Nibble) (v : Nat) (c : Prop) : Prop :=
  (x ≠ 15 → (t.reg x).toNat = v) ∧ (c → t.reg 15 = 1) ∧ (¬ c → t.reg 15 = 0) ∧
    (∀ r, r ≠ x → r ≠ 15 → t.reg r = s.reg r) ∧ PCPlus 2 s t ∧ OnlyRegs s t

/-- The registers an instruction writes (R11, R12): its destination, the flag where its rule names one, a block. -/
def writesReg : Instr → Nibble → Prop
  | .ldImm x _, r | .addImm x _, r | .ldReg x _, r | .orReg x _, r | .andReg x _, r | .xorReg x _, r | .rnd x _, r
  | .ldVxDT x, r | .ldVxK x, r => r = x
  | .addReg x _, r | .subReg x _, r | .shr x _, r | .subnReg x _, r | .shl x _, r => r = x ∨ r = 15
  | .drw _ _ n, r => n ≠ 0 ∧ r = 15
  | .loadRegs x, r => r.toNat ≤ x.toNat
  | _, _ => False

/-- The writers of `I` (R10, R13). -/
def writesIndex : Instr → Prop
  | .ldI _ | .addI _ | .ldF _ => True
  | _ => False

/-- The writers of `SP` (R10, R15). -/
def writesSP : Instr → Prop
  | .call _ | .ret => True
  | _ => False

/-- The writer of the stack's slots (R10, R15). -/
def writesSlots : Instr → Prop
  | .call _ => True
  | _ => False

/-- The writer of `DT` among the instructions (R10, R18). -/
def writesDT : Instr → Prop
  | .ldDTVx _ => True
  | _ => False

/-- The writer of `ST` among the instructions (R10, R18). -/
def writesST : Instr → Prop
  | .ldSTVx _ => True
  | _ => False

/-- The writers of the framebuffer (R10, R19). -/
def writesDisplay : Instr → Prop
  | .cls => True
  | .drw _ _ n => n ≠ 0
  | _ => False

/-- The writers of memory (R43). -/
def writesMemory : Instr → Prop
  | .ldB _ | .storeRegs _ => True
  | _ => False

/-- The readers of the key port (R130). -/
def readsKeys : Instr → Prop
  | .skp _ | .sknp _ | .ldVxK _ => True
  | _ => False

/-- The reader of the random port (R101). -/
def readsRandom : Instr → Prop
  | .rnd _ _ => True
  | _ => False

/-- R73's table: `next_pc` before the final mask, as an unbounded number. -/
def nextPC (i : Instr) (s : State) : Nat :=
  match i with
  | .jp nnn => nnn.toNat
  | .call nnn => nnn.toNat
  | .jpV0 nnn => (s.reg 0).toNat + nnn.toNat
  | .ret => (s.slot (BitVec.ofNat 4 (s.SP.val - 1))).toNat + 2
  | .seImm x nn => if s.reg x = nn then s.PC.toNat + 4 else s.PC.toNat + 2
  | .sneImm x nn => if s.reg x = nn then s.PC.toNat + 2 else s.PC.toNat + 4
  | .seReg x y => if s.reg x = s.reg y then s.PC.toNat + 4 else s.PC.toNat + 2
  | .sneReg x y => if s.reg x = s.reg y then s.PC.toNat + 2 else s.PC.toNat + 4
  | .skp x => if KeyIsDown s (s.reg x) then s.PC.toNat + 4 else s.PC.toNat + 2
  | .sknp x => if KeyIsDown s (s.reg x) then s.PC.toNat + 2 else s.PC.toNat + 4
  | .ldVxK _ => if s.keys = 0 then s.PC.toNat else s.PC.toNat + 2
  | _ => s.PC.toNat + 2

end Sys2Proof.Safety
end

