-- ==== Sys2Proof/Certificates/Slice0/Obligations.lean ====
section
/-! DEFINITION. The statements for the provers, from the numbered rules of spec/. "Model's choice" in a docstring marks a clause that rests on a decision the spec marks as its own or on the model's own, and names it. -/

open Sys2Proof Sys2Proof.Machine Sys2Proof.Safety

/-! ## Reset and the invariant -/

/-- R24: what construction leaves, for every value of the parameter `GLYPH_TABLE`: every register, slot, timer and cell zero,
`PC = 0x200`, the table in memory 0 to 79 and zero above it. -/
def Obligations.ResetLeavesTheStatedValues : Prop :=
  ∀ table : Config.GlyphTable, ∃ t, history table [.reset] = .next t ∧
    (∀ r : Nibble, t.reg r = 0) ∧ t.I = 0 ∧ t.PC.toNat = 0x200 ∧ (∀ k : Nibble, (t.slot k).toNat = 0) ∧ t.SP.val = 0 ∧
    t.DT = 0 ∧ t.ST = 0 ∧ (∀ px py, pixelAt t px py = false) ∧ isSoundActive t = false ∧
    (∀ k : Fin 80, t.memRead k.val = table[k]) ∧ (∀ a, 80 ≤ a → a < 4096 → t.memRead a = 0)

/-- The invariant holds right after reset, with the default glyph table and with every other (model's choice of the form of
memory: log entry 2). -/
def Obligations.ResetMeetsTheInvariant : Prop :=
  StateInv State.reset ∧ ∀ table : Config.GlyphTable, StateInv (State.resetWith table)

/-- Every step keeps memory in its canonical form, from every state that has it (model's choice of the form: log entry 2). -/
def Obligations.StepKeepsMemoryCanonical : Prop := ∀ s t : State, StateInv s → step s = .next t → StateInv t

/-- R147, R149: from every state that meets the invariant, with every glyph table, no sequence of host operations inside the
contract stops, and the state it ends in meets the invariant; so do the histories that begin with a reset; and a reset after
them gives the nine items of the reset again (model's choice of the form of memory, which is the invariant: log entry 2;
contract range of loads and the reset at any time: D15, D22; log entries 8 and 10). -/
def Obligations.HistoriesCompleteAndKeepTheInvariant : Prop :=
  ∀ (table : Config.GlyphTable) (ops : List HostOp), (∀ op ∈ ops, WithinContract op) →
    (∀ s : State, StateInv s → ∃ t, runHost table ops s = .next t ∧ StateInv t ∧
      ∃ u, runHost table (ops ++ [.reset]) s = .next u ∧ SameArch (State.resetWith table) u) ∧
    ∃ t, history table (.reset :: ops) = .next t ∧ StateInv t

/-! ## The step -/

/-- R150: every state has a successor, whatever the word fetched, the key vector and the random byte. -/
def Obligations.EveryStepHasASuccessor : Prop :=
  ∀ (keys : BitVec 16) (rnd : Byte) (s : State),
    (∃ t, hostStep keys rnd s = .next t) ∧ ∀ w : Word, ∃ t, exec (decode w) (s.present keys rnd) = .next t

/-- A step runs the decoded instruction, and adds nothing around it: what the bytes at `PC` and `(PC + 1) mod 4096` decode to is
well formed and is what is executed (R70, R72). -/
def Obligations.StepRunsTheDecodedInstruction : Prop :=
  ∀ (s : State) (i : Instr) (rest : List Byte),
    decodeBytes [s.memRead s.PC.toNat, s.memRead ((s.PC.toNat + 1) % 4096)] = .ok (i, rest) →
      i.wellFormed = true ∧ rest = [] ∧ step s = exec i s

/-- R71: the fetch reads the bytes at `PC` and `(PC + 1) mod 4096`, the first the high byte, for any `PC`. -/
def Obligations.FetchIsBigEndianAndWraps : Prop :=
  ∀ s : State, (fetch s).toNat = (s.memRead s.PC.toNat).toNat * 256 + (s.memRead ((s.PC.toNat + 1) % 4096)).toNat

/-- R73, R74: every instruction completes and the next `PC` is the one of R73's table modulo 4096 (readings of the table: C1, C5,
D2, D3, D10; log entries 5 and 9). -/
def Obligations.NextProgramCounterOfEveryInstruction : Prop :=
  ∀ (i : Instr) (s : State), ∃ t, exec i s = .next t ∧ t.PC.toNat = nextPC i s % 4096

/-- R11, R12: every instruction completes and changes no register but those its rule names, `VF` as a flag by six instructions
alone (no unstated flag: D7; the flag after the result: D4; `DXY0`: D8; log entries 6 and 9). -/
def Obligations.OnlyDestinationRegistersChange : Prop :=
  ∀ (i : Instr) (s : State), ∃ t, exec i s = .next t ∧ ∀ r : Nibble, ¬ writesReg i r → t.reg r = s.reg r

/-- R10's column "written by": `I`, `SP`, the slots, the timers and the framebuffer change only by the instructions it names
(`I` after loads and stores: D11; `DXY0`: D8; log entries 7 and 9). -/
def Obligations.OnlyNamedInstructionsWriteState : Prop :=
  ∀ (i : Instr) (s : State), ∃ t, exec i s = .next t ∧
    (¬ writesIndex i → t.I = s.I) ∧ (¬ writesSP i → t.SP = s.SP) ∧
    (¬ writesSlots i → ∀ k : Nibble, t.slot k = s.slot k) ∧ (¬ writesDT i → t.DT = s.DT) ∧ (¬ writesST i → t.ST = s.ST) ∧
    (¬ writesDisplay i → SameDisplay s t)

/-- R43: a step changes memory only by `FX33` and `FX55`. -/
def Obligations.OnlyStoresChangeMemory : Prop :=
  ∀ s : State, ∃ t, step s = .next t ∧ (¬ writesMemory (decode (fetch s)) → SameMemory s t)

/-- R130, R101: an instruction that does not read a port runs the same whatever stands there and leaves the port as it was (one
vector a step, no latch: D20; one byte drawn per `CXNN`: D12; log entries 3 and 4). -/
def Obligations.PortsReadOnlyByTheirInstructions : Prop :=
  ∀ (i : Instr) (s : State), ∃ t, exec i s = .next t ∧ t.keys = s.keys ∧
    (¬ readsKeys i → ∀ k : BitVec 16, exec i { s with keys := k } = .next { t with keys := k }) ∧
    (¬ readsRandom i → t.rnd = s.rnd ∧ t.draws = s.draws ∧
      ∀ (b : Option Byte) (d : Nat), exec i { s with rnd := b, draws := d } = .next { t with rnd := b, draws := d })

/-- R10, R21: nothing but the nine items persists: two states that agree on them stay in agreement under every sequence of host
operations, whatever stood at the ports before (loads within the contract: D15; log entry 8). -/
def Obligations.HostHistoryDependsOnTheNineItems : Prop :=
  ∀ (table : Config.GlyphTable) (ops : List HostOp) (s s' : State), SameArch s s' → (∀ op ∈ ops, WithinContract op) →
    ∃ t t', runHost table ops s = .next t ∧ runHost table ops s' = .next t' ∧ SameArch t t'

/-- R177: a jump to itself is an end of a run, a fixed point for every key vector and random byte (the definition is the spec's
decision D21; log entry 11). -/
def Obligations.SelfJumpEndsTheRun : Prop :=
  ∀ s : State, (fetch s).toNat = 0x1000 + s.PC.toNat → EndOfRun s

/-! ## Encoding -/

/-- Decode of encode is the instruction, for every well-formed instruction and every operand (words matched in full: D14; family
8's assignment: D24; log entry 9). -/
def Obligations.DecodeEncodeRoundTrip : Prop :=
  ∀ i : Instr, i.wellFormed = true → decode (encode i) = i ∧ decodeBytes (encodeBytes i) = .ok (i, [])

/-- R54: the decoder is total and loses nothing: every word decodes to a well-formed instruction that encodes to that word. -/
def Obligations.EncodeDecodeRoundTrip : Prop :=
  ∀ w : Word, (decode w).wellFormed = true ∧ encode (decode w) = w

/-- R55: a word is the instruction of a row exactly when `w & mask = match` (matched in full: D14; family 8's assignment: D24;
log entry 9). -/
def Obligations.DecoderFollowsTheOpcodeMap : Prop :=
  ∀ w : Word, ∀ r ∈ opcodeRows, (r.covers w = true ↔ (decode w).pattern = some r.pattern)

/-- R56: a word is an ignored encoding exactly when it is in R56's table, exactly when no row of R55 covers it (D14; log
entry 9). -/
def Obligations.IgnoredWordsAreThoseNoRowCovers : Prop :=
  ∀ w : Word, (decode w = .ignored w ↔ ignoredWord w = true) ∧
    (ignoredWord w = true ↔ ∀ r ∈ opcodeRows, r.covers w = false)

/-- R59 and R55: words written out from the spec's encodings, one or more of every family. -/
def Obligations.SampleWordsDecode : Prop :=
  decodeBytes [0x6A, 0x02] = .ok (.ldImm 0xA 0x02, []) ∧ decode 0x8014 = .addReg 0 1 ∧ decode 0x00EE = .ret ∧
    decode 0x220A = .call 0x20A ∧ decode 0xF21E = .addI 2 ∧ decode 0xD125 = .drw 1 2 5 ∧ decode 0xE0A1 = .sknp 0 ∧
    decode 0xF30A = .ldVxK 3 ∧ decode 0x5AB1 = .ignored 0x5AB1

/-! ## Memory -/

/-- R31, R38(a): a byte read after any sequence of writes is the last one written at its address, both addresses taken modulo
4096, and what it was if none was; reading an address is reading its remainder. -/
def Obligations.MemoryReadsReturnTheLastWrite : Prop :=
  ∀ (s : State) (ws : List (Nat × Byte)) (c : Nat),
    (ws.foldl (fun t w => t.memWrite w.1 w.2) s).memRead c =
      (match ws.reverse.find? (fun w => w.1 % 4096 == c % 4096) with
        | some w => w.2
        | none => s.memRead c) ∧
    s.memRead c = s.memRead (c % 4096)

/-- Two canonical memories that read the same everywhere are the same data (model's choice of the form: log entry 2). -/
def Obligations.CanonicalMemoriesAreEqualWhenReadsAre : Prop :=
  ∀ m m' : Memory, Memory.wf m → Memory.wf m' → (∀ a, a < 4096 → Memory.read m a = Memory.read m' a) → m = m'

/-- R40: a stored instruction is what the next step fetches: `FX55` over the two bytes that follow it (a reading the spec marks
derived). -/
def Obligations.StoredBytesAreFetchedNext : Prop :=
  ∀ (x : Nibble) (s : State), 1 ≤ x.toNat → s.I.toNat = (s.PC.toNat + 2) % 4096 →
    ∃ t, exec (.storeRegs x) s = .next t ∧ (fetch t).toNat = (s.reg 0).toNat * 256 + (s.reg 1).toNat

/-! ## Control flow -/

/-- R80: RET goes two past the popped address; SP down by one, floored at 0; on an empty stack slot 0 is read; no slot changes
(D2, D3; log entry 5). -/
def Obligations.ReturnGoesTwoPastThePoppedAddress : Prop :=
  ∀ s : State, ∃ t, exec .ret s = .next t ∧ t.SP.val = s.SP.val - 1 ∧ (∀ k : Nibble, t.slot k = s.slot k) ∧
    t.PC.toNat = ((s.slot (BitVec.ofNat 4 (s.SP.val - 1))).toNat + 2) % 4096 ∧ OnlyStack s t

/-- R81: JP sets the program counter and nothing else; a jump to itself leaves the whole state. -/
def Obligations.JumpSetsOnlyTheProgramCounter : Prop :=
  ∀ (nnn : Addr) (s : State), decode (formA 0x1 nnn) = .jp nnn ∧
    ∃ t, exec (.jp nnn) s = .next t ∧ t.PC = nnn ∧ OnlyPC s t ∧ (nnn = s.PC → t = s)

/-- R82: CALL pushes its own address and jumps; on a full stack nothing is pushed and the jump is still taken (D26; log entry
5). -/
def Obligations.CallPushesItsOwnAddress : Prop :=
  ∀ (nnn : Addr) (s : State), ∃ t, exec (.call nnn) s = .next t ∧ t.PC = nnn ∧ OnlyStack s t ∧
    (s.SP.val < 16 → t.SP.val = s.SP.val + 1 ∧ ∀ k : Nibble, t.slot k = if k.toNat = s.SP.val then s.PC else s.slot k) ∧
    (s.SP.val = 16 → SameStack s t)

/-- R16: `push` on a stack that is not full writes the slot `SP` alone and counts it; on a full stack it does nothing. -/
def Obligations.PushIsDroppedOnAFullStack : Prop :=
  ∀ (v : Addr) (s : State),
    (s.SP.val < 16 → (s.push v).SP.val = s.SP.val + 1 ∧ OnlyStack s (s.push v) ∧ (s.push v).PC = s.PC ∧
      ∀ k : Nibble, (s.push v).slot k = if k.toNat = s.SP.val then v else s.slot k) ∧
    (s.SP.val = 16 → s.push v = s)

/-- The stack round trip: after a CALL on a stack that is not full, a RET in any later state with the same stack goes to the
instruction after the call, and the stack has its old depth (R82, R80; D2; log entry 5). -/
def Obligations.CallThenReturnRoundTrip : Prop :=
  ∀ (nnn : Addr) (s : State), s.SP.val < 16 → ∃ t, exec (.call nnn) s = .next t ∧
    ∀ v : State, SameStack t v → ∃ u, exec .ret v = .next u ∧ PCPlus 2 s u ∧ u.SP = s.SP

/-- R83, R84: the skips on an immediate. -/
def Obligations.SkipsComparingWithAnImmediate : Prop :=
  ∀ (x : Nibble) (nn : Byte) (s : State),
    decode (formI 0x3 x nn) = .seImm x nn ∧ decode (formI 0x4 x nn) = .sneImm x nn ∧
    (∃ t, exec (.seImm x nn) s = .next t ∧ PCSkips (s.reg x = nn) s t ∧ OnlyPC s t) ∧
    (∃ t, exec (.sneImm x nn) s = .next t ∧ PCSkips (s.reg x ≠ nn) s t ∧ OnlyPC s t)

/-- R85, R86: the skips on two registers; a nonzero low nibble is ignored. -/
def Obligations.SkipsComparingTwoRegisters : Prop :=
  ∀ (x y : Nibble) (s : State),
    decode (formR 0x5 x y 0) = .seReg x y ∧ decode (formR 0x9 x y 0) = .sneReg x y ∧
    (∀ n : Nibble, n ≠ 0 → decode (formR 0x5 x y n) = .ignored (formR 0x5 x y n) ∧
      decode (formR 0x9 x y n) = .ignored (formR 0x9 x y n)) ∧
    (∃ t, exec (.seReg x y) s = .next t ∧ PCSkips (s.reg x = s.reg y) s t ∧ OnlyPC s t) ∧
    (∃ t, exec (.sneReg x y) s = .next t ∧ PCSkips (s.reg x ≠ s.reg y) s t ∧ OnlyPC s t)

/-- R87: JP V0 adds before it masks, and always `V0`. -/
def Obligations.IndexedJumpAddsV0 : Prop :=
  ∀ (nnn : Addr) (s : State), decode (formA 0xB nnn) = .jpV0 nnn ∧
    ∃ t, exec (.jpV0 nnn) s = .next t ∧ t.PC.toNat = ((s.reg 0).toNat + nnn.toNat) % 4096 ∧ OnlyPC s t

/-- R75: an ignored encoding does nothing but the default advance; the words of R56's table, matched as the spec decides (D14; log
entry 9), are the ignored encodings. -/
def Obligations.IgnoredEncodingOnlyAdvances : Prop :=
  ∀ (w : Word) (s : State), (ignoredWord w = true → decode w = .ignored w) ∧
    ∃ t, exec (.ignored w) s = .next t ∧ PCPlus 2 s t ∧ OnlyPC s t

/-! ## ALU -/

/-- R90: LD Vx, nn. -/
def Obligations.LoadImmediateWritesTheByte : Prop :=
  ∀ (x : Nibble) (nn : Byte) (s : State), decode (formI 0x6 x nn) = .ldImm x nn ∧
    ∃ t, exec (.ldImm x nn) s = .next t ∧ (∀ r, t.reg r = if r = x then nn else s.reg r) ∧ PCPlus 2 s t ∧ OnlyRegs s t

/-- R91: ADD Vx, nn wraps modulo 256 and writes no flag (D7; log entry 6). -/
def Obligations.AddImmediateWrapsWithoutFlag : Prop :=
  ∀ (x : Nibble) (nn : Byte) (s : State), ∃ t, exec (.addImm x nn) s = .next t ∧
    (t.reg x).toNat = ((s.reg x).toNat + nn.toNat) % 256 ∧ (∀ r, r ≠ x → t.reg r = s.reg r) ∧ PCPlus 2 s t ∧ OnlyRegs s t

/-- R92: LD Vx, Vy (the low nibble 0 is the list's first operation: D24; log entry 9). -/
def Obligations.RegisterCopyWritesTheSource : Prop :=
  ∀ (x y : Nibble) (s : State), decode (formR 0x8 x y 0) = .ldReg x y ∧
    ∃ t, exec (.ldReg x y) s = .next t ∧ (∀ r, t.reg r = if r = x then s.reg y else s.reg r) ∧ PCPlus 2 s t ∧ OnlyRegs s t

/-- R93, R94, R95: OR, AND, XOR bit by bit, and no flag (D7; log entry 6). -/
def Obligations.LogicOperationsWriteNoFlag : Prop :=
  ∀ (x y : Nibble) (s : State),
    (∃ t, exec (.orReg x y) s = .next t ∧
      (∀ k, (t.reg x).getLsbD k = ((s.reg x).getLsbD k || (s.reg y).getLsbD k)) ∧
      (∀ r, r ≠ x → t.reg r = s.reg r) ∧ PCPlus 2 s t ∧ OnlyRegs s t) ∧
    (∃ t, exec (.andReg x y) s = .next t ∧
      (∀ k, (t.reg x).getLsbD k = ((s.reg x).getLsbD k && (s.reg y).getLsbD k)) ∧
      (∀ r, r ≠ x → t.reg r = s.reg r) ∧ PCPlus 2 s t ∧ OnlyRegs s t) ∧
    (∃ t, exec (.xorReg x y) s = .next t ∧
      (∀ k, (t.reg x).getLsbD k = ((s.reg x).getLsbD k != (s.reg y).getLsbD k)) ∧
      (∀ r, r ≠ x → t.reg r = s.reg r) ∧ PCPlus 2 s t ∧ OnlyRegs s t)

/-- R96: ADD Vx, Vy modulo 256, then `VF` = 1 exactly when the sum exceeds 255 (order of the two writes: D4; log entry 6). -/
def Obligations.AddSetsCarry : Prop :=
  ∀ (x y : Nibble) (s : State), ∃ t, exec (.addReg x y) s = .next t ∧
    ResultAndFlag s t x (((s.reg x).toNat + (s.reg y).toNat) % 256) ((s.reg x).toNat + (s.reg y).toNat > 255)

/-- R97, R99: SUB and SUBN modulo 256, then `VF` = 1 exactly when the first operand is strictly greater (D6, D4; log entry 6). -/
def Obligations.SubtractionsSetStrictlyGreater : Prop :=
  ∀ (x y : Nibble) (s : State),
    (∃ t, exec (.subReg x y) s = .next t ∧
      ResultAndFlag s t x (((s.reg x).toNat + 256 - (s.reg y).toNat) % 256) ((s.reg x).toNat > (s.reg y).toNat)) ∧
    (∃ t, exec (.subnReg x y) s = .next t ∧
      ResultAndFlag s t x (((s.reg y).toNat + 256 - (s.reg x).toNat) % 256) ((s.reg y).toNat > (s.reg x).toNat))

/-- R98, R100: the shifts act on `Vx` by one bit whatever `y` is, and `VF` is the bit shifted out (D5, D4; log entry 6). -/
def Obligations.ShiftsSetTheBitShiftedOut : Prop :=
  ∀ (x y : Nibble) (s : State),
    (∃ t, exec (.shr x y) s = .next t ∧ ResultAndFlag s t x ((s.reg x).toNat / 2) ((s.reg x).toNat % 2 = 1)) ∧
    (∃ t, exec (.shl x y) s = .next t ∧ ResultAndFlag s t x ((s.reg x).toNat * 2 % 256) ((s.reg x).toNat / 128 % 2 = 1))

/-- R101: RND masks the byte at the random port, consumes exactly that one, and can give every result within the mask (the byte
is an input, and a free value where the host presents none: D12; log entry 4). -/
def Obligations.RandomByteIsMaskedAndConsumed : Prop :=
  ∀ (x : Nibble) (nn : Byte) (s : State),
    (∃ t, exec (.rnd x nn) s = .next t ∧ t.reg x = nn &&& s.randomByte ∧ (∀ r, r ≠ x → t.reg r = s.reg r) ∧
      t.rnd = none ∧ t.draws = s.draws + 1 ∧ t.keys = s.keys ∧ t.I = s.I ∧ SameMemory s t ∧ SameStack s t ∧
      SameDisplay s t ∧ SameTimers s t ∧ PCPlus 2 s t) ∧
    ∀ (keys : BitVec 16) (v : Byte), v &&& ~~~nn = 0 →
      ∃ rnd t, exec (.rnd x nn) (s.present keys rnd) = .next t ∧ t.reg x = v

/-! ## Index and memory instructions -/

/-- R110: LD I, nnn. -/
def Obligations.LoadIndexWritesTheAddress : Prop :=
  ∀ (nnn : Addr) (s : State), decode (formA 0xA nnn) = .ldI nnn ∧
    ∃ t, exec (.ldI nnn) s = .next t ∧ t.I = nnn ∧ PCPlus 2 s t ∧ OnlyIndex s t

/-- R111: ADD I, Vx wraps modulo 4096 and writes no flag (D7; log entry 6). -/
def Obligations.AddToIndexWrapsWithoutFlag : Prop :=
  ∀ (x : Nibble) (s : State), ∃ t, exec (.addI x) s = .next t ∧
    t.I.toNat = (s.I.toNat + (s.reg x).toNat) % 4096 ∧ PCPlus 2 s t ∧ OnlyIndex s t

/-- R112: LD F, Vx multiplies the whole byte by 5 (D23; log entry 7). -/
def Obligations.GlyphAddressIsFiveTimesTheByte : Prop :=
  ∀ (x : Nibble) (s : State), ∃ t, exec (.ldF x) s = .next t ∧
    t.I.toNat = (s.reg x).toNat * 5 ∧ PCPlus 2 s t ∧ OnlyIndex s t

/-- R113: LD B, Vx stores the hundreds, tens and ones at `I`, `I + 1`, `I + 2`, each wrapping, and no other byte; `I` stays (D11;
log entry 7). -/
def Obligations.BcdDigitsAreStored : Prop :=
  ∀ (x : Nibble) (s : State), ∃ t, exec (.ldB x) s = .next t ∧ PCPlus 2 s t ∧ OnlyMemory s t ∧
    (t.memRead (s.I.toNat + 0)).toNat = (s.reg x).toNat / 100 ∧
    (t.memRead (s.I.toNat + 1)).toNat = (s.reg x).toNat / 10 % 10 ∧
    (t.memRead (s.I.toNat + 2)).toNat = (s.reg x).toNat % 10 ∧
    ∀ a, (∀ k, k < 3 → a % 4096 ≠ (s.I.toNat + k) % 4096) → t.memRead a = s.memRead a

/-- R114: LD [I], Vx stores `V0` to `Vx` from `I`, each address wrapping, and no other byte; `I` stays (D11; log entry 7). -/
def Obligations.RegisterBlockIsStored : Prop :=
  ∀ (x : Nibble) (s : State), ∃ t, exec (.storeRegs x) s = .next t ∧ PCPlus 2 s t ∧ OnlyMemory s t ∧
    (∀ r : Nibble, r.toNat ≤ x.toNat → t.memRead (s.I.toNat + r.toNat) = s.reg r) ∧
    ∀ a, (∀ k, k ≤ x.toNat → a % 4096 ≠ (s.I.toNat + k) % 4096) → t.memRead a = s.memRead a

/-- R115: LD Vx, [I] loads `V0` to `Vx` from `I`, each address wrapping, and no other register; `I` stays (D11; log entry 7). -/
def Obligations.RegisterBlockIsLoaded : Prop :=
  ∀ (x : Nibble) (s : State), ∃ t, exec (.loadRegs x) s = .next t ∧ PCPlus 2 s t ∧ OnlyRegs s t ∧
    ∀ r : Nibble, t.reg r = if r.toNat ≤ x.toNat then s.memRead (s.I.toNat + r.toNat) else s.reg r

/-- R114, R115: a block stored and then loaded in any state with that memory and `I` gives the registers back (`I` stays: D11; log
entry 7). -/
def Obligations.StoreThenLoadRestoresRegisters : Prop :=
  ∀ (x : Nibble) (s : State), ∃ t, exec (.storeRegs x) s = .next t ∧
    ∀ v : State, SameMemory t v → v.I = t.I →
      ∃ u, exec (.loadRegs x) v = .next u ∧ ∀ r : Nibble, r.toNat ≤ x.toNat → u.reg r = s.reg r

/-! ## Display -/

/-- R121: CLS turns every cell off and changes nothing else. -/
def Obligations.ClearTurnsEveryCellOff : Prop :=
  decode 0x00E0 = .cls ∧
  ∀ s : State, ∃ t, exec .cls s = .next t ∧ (∀ px py, pixelAt t px py = false) ∧ PCPlus 2 s t ∧ SameRegs s t ∧
    t.I = s.I ∧ SameMemory s t ∧ SameStack s t ∧ SameTimers s t ∧ SamePorts s t

/-- R122: DRW with `n` of 1 or more inverts exactly the cells the sprite has a set bit for, and `VF` is 1 exactly when one of them
was on; nothing else changes (origin read before `VF` is written: D4; log entry 6). -/
def Obligations.DrawInvertsTheSpritesCells : Prop :=
  ∀ (x y n : Nibble) (s : State), n ≠ 0 → ∃ t, exec (.drw x y n) s = .next t ∧
    (∀ px py, (spriteBit s (s.reg x) (s.reg y) n.toNat px py → t.pixel px py = !s.pixel px py) ∧
      (¬ spriteBit s (s.reg x) (s.reg y) n.toNat px py → t.pixel px py = s.pixel px py)) ∧
    ((∃ px py, spriteBit s (s.reg x) (s.reg y) n.toNat px py ∧ s.pixel px py = true) → t.reg 15 = 1) ∧
    (¬ (∃ px py, spriteBit s (s.reg x) (s.reg y) n.toNat px py ∧ s.pixel px py = true) → t.reg 15 = 0) ∧
    (∀ r, r ≠ 15 → t.reg r = s.reg r) ∧ t.I = s.I ∧ SameMemory s t ∧ SameStack s t ∧ SameTimers s t ∧ SamePorts s t ∧
    PCPlus 2 s t

/-- R124: DRW with `n = 0` is a no-operation that leaves `VF` (D8, C3; log entry 9). -/
def Obligations.DrawOfHeightZeroIsANoOperation : Prop :=
  ∀ (x y : Nibble) (s : State), ∃ t, exec (.drw x y 0) s = .next t ∧ PCPlus 2 s t ∧ OnlyPC s t

/-- R122: the same sprite drawn twice at the same place restores the framebuffer, and the second draw's `VF` is 1 exactly when the
sprite turned a cell on in the first (the place is the same unless `x` or `y` is 15 and the flag moved it: D4; log entry 6). -/
def Obligations.DrawingTwiceErases : Prop :=
  ∀ (x y n : Nibble) (s : State), n ≠ 0 → ∃ t, exec (.drw x y n) s = .next t ∧
    (t.reg x = s.reg x → t.reg y = s.reg y → ∃ u, exec (.drw x y n) t = .next u ∧ SameDisplay s u ∧
      (u.reg 15 = 1 ↔ ∃ px py, spriteBit s (s.reg x) (s.reg y) n.toNat px py ∧ s.pixel px py = false))

/-- R120: the address generator wraps both axes on their own, its linear address is `py * 64 + px` (D16; log entry 9), and no two
places of one sprite have the same cell. -/
def Obligations.FramebufferAddressGenerator : Prop :=
  (∀ (ox oy : Byte) (r c : Nat), (columnOf ox c).toNat = (ox.toNat + c) % 64 ∧ (rowOf oy r).toNat = (oy.toNat + r) % 32) ∧
  (∀ px py, (linearCell px py).toNat = py.toNat * 64 + px.toNat) ∧
  ∀ (ox oy : Byte) (r c r' c' : Nat), r < 15 → r' < 15 → c < 8 → c' < 8 →
    linearCell (columnOf ox c) (rowOf oy r) = linearCell (columnOf ox c') (rowOf oy r') → r = r' ∧ c = c'

/-- R123: with the table in memory, LD F and a DRW of five rows invert exactly the cells of the digit's glyph, for
every table (a parameter: D13; log entry 1). -/
def Obligations.GlyphOfADigitIsDrawn : Prop :=
  ∀ (table : Config.GlyphTable) (d x a b : Nibble) (s : State), (s.reg x).toNat = d.toNat →
    (∀ k, k < 80 → s.memRead k = tableByte table k) →
    ∃ t, exec (.ldF x) s = .next t ∧ ∃ u, exec (.drw a b 5) t = .next u ∧
      ∀ px py, (u.pixel px py ≠ s.pixel px py ↔ ∃ r c : Nat, r < 5 ∧ c < 8 ∧
        px.toNat = ((s.reg a).toNat + c) % 64 ∧ py.toNat = ((s.reg b).toNat + r) % 32 ∧
        (tableByte table (5 * d.toNat + r)).getLsbD (7 - c) = true)

/-! ## Keys and timers -/

/-- R131: SKP skips exactly when the key the whole byte names is down; 16 and above name none. -/
def Obligations.SkipIfKeyDown : Prop :=
  ∀ (x : Nibble) (s : State), decode (formI 0xE x 0x9E) = .skp x ∧
    ∃ t, exec (.skp x) s = .next t ∧ PCSkips (KeyIsDown s (s.reg x)) s t ∧ OnlyPC s t

/-- R132: SKNP skips exactly when that key is not down, so always for 16 and above (D10, C4; log entry 9). -/
def Obligations.SkipIfKeyNotDown : Prop :=
  ∀ (x : Nibble) (s : State), ∃ t, exec (.sknp x) s = .next t ∧ PCSkips (¬ KeyIsDown s (s.reg x)) s t ∧ OnlyPC s t

/-- R133: LD Vx, K takes the least key down; with none down the whole state stays. -/
def Obligations.KeyWaitTakesTheLeastKey : Prop :=
  ∀ (x : Nibble) (s : State), decode (formI 0xF x 0x0A) = .ldVxK x ∧
    ∃ t, exec (.ldVxK x) s = .next t ∧ ((∀ k, k < 16 → s.keys.getLsbD k = false) → t = s) ∧
      ∀ k, k < 16 → s.keys.getLsbD k = true → (∀ j, j < k → s.keys.getLsbD j = false) →
        (t.reg x).toNat = k ∧ (∀ r, r ≠ x → t.reg r = s.reg r) ∧ PCPlus 2 s t ∧ OnlyRegs s t

/-- R134, R135: the delay timer read into a register, and set from one. -/
def Obligations.DelayTimerIsReadAndSet : Prop :=
  ∀ (x : Nibble) (s : State), decode (formI 0xF x 0x07) = .ldVxDT x ∧ decode (formI 0xF x 0x15) = .ldDTVx x ∧
    (∃ t, exec (.ldVxDT x) s = .next t ∧ (∀ r, t.reg r = if r = x then s.DT else s.reg r) ∧ PCPlus 2 s t ∧ OnlyRegs s t) ∧
    (∃ t, exec (.ldDTVx x) s = .next t ∧ t.DT = s.reg x ∧ t.ST = s.ST ∧ PCPlus 2 s t ∧ SameRegs s t ∧ t.I = s.I ∧
      SameMemory s t ∧ SameStack s t ∧ SameDisplay s t ∧ SamePorts s t)

/-- R136, R145: the sound timer set from a register; sound is active exactly while it is above 0, so not after reset, and after
`n` ticks exactly while `n` is below the value set. -/
def Obligations.SoundIsActiveUntilTheTimerRunsOut : Prop :=
  ∀ (x : Nibble) (s : State), decode (formI 0xF x 0x18) = .ldSTVx x ∧ (isSoundActive s = true ↔ 0 < s.ST.toNat) ∧
    isSoundActive State.reset = false ∧
    ∃ t, exec (.ldSTVx x) s = .next t ∧ t.ST = s.reg x ∧ t.DT = s.DT ∧ PCPlus 2 s t ∧ SameRegs s t ∧ t.I = s.I ∧
      SameMemory s t ∧ SameStack s t ∧ SameDisplay s t ∧ SamePorts s t ∧
      ∀ n : Nat, isSoundActive (tick^[n] t) = true ↔ n < (s.reg x).toNat

/-! ## Host operations -/

/-- R144: a tick counts both timers down by one, floored at 0, and changes nothing else; repeated ticks never go below 0; a step
never counts a timer down. -/
def Obligations.TicksCountDownAndStepsDoNot : Prop :=
  (∀ (table : Config.GlyphTable) (s : State), ∃ t, applyHostOp table .tick s = .next t ∧
    t.DT.toNat = s.DT.toNat - 1 ∧ t.ST.toNat = s.ST.toNat - 1 ∧ t.PC = s.PC ∧ t.I = s.I ∧ SameRegs s t ∧ SameMemory s t ∧ SameStack s t ∧ SameDisplay s t ∧ SamePorts s t) ∧
  (∀ (s : State) (n : Nat), (tick^[n] s).DT.toNat = s.DT.toNat - n ∧ (tick^[n] s).ST.toNat = s.ST.toNat - n) ∧
  ∀ s : State, ∃ t, step s = .next t ∧ (¬ writesDT (decode (fetch s)) → t.DT = s.DT) ∧
    (¬ writesST (decode (fetch s)) → t.ST = s.ST)

/-- R142: `load_byte` with an offset in its contract writes one byte at `0x200 + offset` and nothing else (the
contract's range: C2, D15; log entry 8). -/
def Obligations.LoadByteWritesOneProgramByte : Prop :=
  ∀ (table : Config.GlyphTable) (offset : BitVec 12) (b : Byte) (s : State), offset.toNat ≤ 3071 →
    ∃ t, applyHostOp table (.load offset b) s = .next t ∧ t.memRead (0x200 + offset.toNat) = b ∧
      (∀ a, a % 4096 ≠ 0x200 + offset.toNat → t.memRead a = s.memRead a) ∧ t.PC = s.PC ∧ OnlyMemory s t

/-- Calls outside the contract have no move: a load above offset 3071 (D15, C2, U9; log entry 8), any operation before the first
reset (D22, U12; log entry 10). -/
def Obligations.CallsOutsideTheContractAreRefused : Prop :=
  (∀ (table : Config.GlyphTable) (offset : BitVec 12) (b : Byte) (s : State), 3072 ≤ offset.toNat →
    applyHostOp table (.load offset b) s = .refused .loadOffsetOutOfContract) ∧
  ∀ (table : Config.GlyphTable) (op : HostOp) (ops : List HostOp), op ≠ .reset →
    history table (op :: ops) = .refused .operationBeforeReset
end

