-- ==== Sys2Proof/Laws/State.lean ====
section
/-! SUPPORT. Each field after each update of the state, true by rfl; then the updates that branch (skip, push, result and flag). -/

namespace Sys2Proof.Machine

variable (s : State)

/-! ### memWrite -/

@[simp] theorem State.memWrite_memory (a : Nat) (b : Byte) : (s.memWrite a b).memory = Memory.write s.memory (a % Config.memSize) b := rfl
@[simp] theorem State.memWrite_V (a : Nat) (b : Byte) : (s.memWrite a b).V = s.V := rfl
@[simp] theorem State.memWrite_I (a : Nat) (b : Byte) : (s.memWrite a b).I = s.I := rfl
@[simp] theorem State.memWrite_PC (a : Nat) (b : Byte) : (s.memWrite a b).PC = s.PC := rfl
@[simp] theorem State.memWrite_stack (a : Nat) (b : Byte) : (s.memWrite a b).stack = s.stack := rfl
@[simp] theorem State.memWrite_SP (a : Nat) (b : Byte) : (s.memWrite a b).SP = s.SP := rfl
@[simp] theorem State.memWrite_DT (a : Nat) (b : Byte) : (s.memWrite a b).DT = s.DT := rfl
@[simp] theorem State.memWrite_ST (a : Nat) (b : Byte) : (s.memWrite a b).ST = s.ST := rfl
@[simp] theorem State.memWrite_fb (a : Nat) (b : Byte) : (s.memWrite a b).fb = s.fb := rfl
@[simp] theorem State.memWrite_keys (a : Nat) (b : Byte) : (s.memWrite a b).keys = s.keys := rfl
@[simp] theorem State.memWrite_rnd (a : Nat) (b : Byte) : (s.memWrite a b).rnd = s.rnd := rfl
@[simp] theorem State.memWrite_draws (a : Nat) (b : Byte) : (s.memWrite a b).draws = s.draws := rfl

/-! ### writeReg -/

@[simp] theorem State.writeReg_memory (x : Nibble) (b : Byte) : (s.writeReg x b).memory = s.memory := rfl
@[simp] theorem State.writeReg_V (x : Nibble) (b : Byte) : (s.writeReg x b).V = s.V.set x.toNat b x.isLt := rfl
@[simp] theorem State.writeReg_I (x : Nibble) (b : Byte) : (s.writeReg x b).I = s.I := rfl
@[simp] theorem State.writeReg_PC (x : Nibble) (b : Byte) : (s.writeReg x b).PC = s.PC := rfl
@[simp] theorem State.writeReg_stack (x : Nibble) (b : Byte) : (s.writeReg x b).stack = s.stack := rfl
@[simp] theorem State.writeReg_SP (x : Nibble) (b : Byte) : (s.writeReg x b).SP = s.SP := rfl
@[simp] theorem State.writeReg_DT (x : Nibble) (b : Byte) : (s.writeReg x b).DT = s.DT := rfl
@[simp] theorem State.writeReg_ST (x : Nibble) (b : Byte) : (s.writeReg x b).ST = s.ST := rfl
@[simp] theorem State.writeReg_fb (x : Nibble) (b : Byte) : (s.writeReg x b).fb = s.fb := rfl
@[simp] theorem State.writeReg_keys (x : Nibble) (b : Byte) : (s.writeReg x b).keys = s.keys := rfl
@[simp] theorem State.writeReg_rnd (x : Nibble) (b : Byte) : (s.writeReg x b).rnd = s.rnd := rfl
@[simp] theorem State.writeReg_draws (x : Nibble) (b : Byte) : (s.writeReg x b).draws = s.draws := rfl

/-! ### writeI -/

@[simp] theorem State.writeI_memory (a : Addr) : (s.writeI a).memory = s.memory := rfl
@[simp] theorem State.writeI_V (a : Addr) : (s.writeI a).V = s.V := rfl
@[simp] theorem State.writeI_I (a : Addr) : (s.writeI a).I = a := rfl
@[simp] theorem State.writeI_PC (a : Addr) : (s.writeI a).PC = s.PC := rfl
@[simp] theorem State.writeI_stack (a : Addr) : (s.writeI a).stack = s.stack := rfl
@[simp] theorem State.writeI_SP (a : Addr) : (s.writeI a).SP = s.SP := rfl
@[simp] theorem State.writeI_DT (a : Addr) : (s.writeI a).DT = s.DT := rfl
@[simp] theorem State.writeI_ST (a : Addr) : (s.writeI a).ST = s.ST := rfl
@[simp] theorem State.writeI_fb (a : Addr) : (s.writeI a).fb = s.fb := rfl
@[simp] theorem State.writeI_keys (a : Addr) : (s.writeI a).keys = s.keys := rfl
@[simp] theorem State.writeI_rnd (a : Addr) : (s.writeI a).rnd = s.rnd := rfl
@[simp] theorem State.writeI_draws (a : Addr) : (s.writeI a).draws = s.draws := rfl

/-! ### writeDT -/

@[simp] theorem State.writeDT_memory (b : Byte) : (s.writeDT b).memory = s.memory := rfl
@[simp] theorem State.writeDT_V (b : Byte) : (s.writeDT b).V = s.V := rfl
@[simp] theorem State.writeDT_I (b : Byte) : (s.writeDT b).I = s.I := rfl
@[simp] theorem State.writeDT_PC (b : Byte) : (s.writeDT b).PC = s.PC := rfl
@[simp] theorem State.writeDT_stack (b : Byte) : (s.writeDT b).stack = s.stack := rfl
@[simp] theorem State.writeDT_SP (b : Byte) : (s.writeDT b).SP = s.SP := rfl
@[simp] theorem State.writeDT_DT (b : Byte) : (s.writeDT b).DT = b := rfl
@[simp] theorem State.writeDT_ST (b : Byte) : (s.writeDT b).ST = s.ST := rfl
@[simp] theorem State.writeDT_fb (b : Byte) : (s.writeDT b).fb = s.fb := rfl
@[simp] theorem State.writeDT_keys (b : Byte) : (s.writeDT b).keys = s.keys := rfl
@[simp] theorem State.writeDT_rnd (b : Byte) : (s.writeDT b).rnd = s.rnd := rfl
@[simp] theorem State.writeDT_draws (b : Byte) : (s.writeDT b).draws = s.draws := rfl

/-! ### writeST -/

@[simp] theorem State.writeST_memory (b : Byte) : (s.writeST b).memory = s.memory := rfl
@[simp] theorem State.writeST_V (b : Byte) : (s.writeST b).V = s.V := rfl
@[simp] theorem State.writeST_I (b : Byte) : (s.writeST b).I = s.I := rfl
@[simp] theorem State.writeST_PC (b : Byte) : (s.writeST b).PC = s.PC := rfl
@[simp] theorem State.writeST_stack (b : Byte) : (s.writeST b).stack = s.stack := rfl
@[simp] theorem State.writeST_SP (b : Byte) : (s.writeST b).SP = s.SP := rfl
@[simp] theorem State.writeST_DT (b : Byte) : (s.writeST b).DT = s.DT := rfl
@[simp] theorem State.writeST_ST (b : Byte) : (s.writeST b).ST = b := rfl
@[simp] theorem State.writeST_fb (b : Byte) : (s.writeST b).fb = s.fb := rfl
@[simp] theorem State.writeST_keys (b : Byte) : (s.writeST b).keys = s.keys := rfl
@[simp] theorem State.writeST_rnd (b : Byte) : (s.writeST b).rnd = s.rnd := rfl
@[simp] theorem State.writeST_draws (b : Byte) : (s.writeST b).draws = s.draws := rfl

/-! ### jump -/

@[simp] theorem State.jump_memory (a : Addr) : (s.jump a).memory = s.memory := rfl
@[simp] theorem State.jump_V (a : Addr) : (s.jump a).V = s.V := rfl
@[simp] theorem State.jump_I (a : Addr) : (s.jump a).I = s.I := rfl
@[simp] theorem State.jump_PC (a : Addr) : (s.jump a).PC = a := rfl
@[simp] theorem State.jump_stack (a : Addr) : (s.jump a).stack = s.stack := rfl
@[simp] theorem State.jump_SP (a : Addr) : (s.jump a).SP = s.SP := rfl
@[simp] theorem State.jump_DT (a : Addr) : (s.jump a).DT = s.DT := rfl
@[simp] theorem State.jump_ST (a : Addr) : (s.jump a).ST = s.ST := rfl
@[simp] theorem State.jump_fb (a : Addr) : (s.jump a).fb = s.fb := rfl
@[simp] theorem State.jump_keys (a : Addr) : (s.jump a).keys = s.keys := rfl
@[simp] theorem State.jump_rnd (a : Addr) : (s.jump a).rnd = s.rnd := rfl
@[simp] theorem State.jump_draws (a : Addr) : (s.jump a).draws = s.draws := rfl

/-! ### advance -/

@[simp] theorem State.advance_memory : (s.advance).memory = s.memory := rfl
@[simp] theorem State.advance_V : (s.advance).V = s.V := rfl
@[simp] theorem State.advance_I : (s.advance).I = s.I := rfl
@[simp] theorem State.advance_PC : (s.advance).PC = s.PC + 2 := rfl
@[simp] theorem State.advance_stack : (s.advance).stack = s.stack := rfl
@[simp] theorem State.advance_SP : (s.advance).SP = s.SP := rfl
@[simp] theorem State.advance_DT : (s.advance).DT = s.DT := rfl
@[simp] theorem State.advance_ST : (s.advance).ST = s.ST := rfl
@[simp] theorem State.advance_fb : (s.advance).fb = s.fb := rfl
@[simp] theorem State.advance_keys : (s.advance).keys = s.keys := rfl
@[simp] theorem State.advance_rnd : (s.advance).rnd = s.rnd := rfl
@[simp] theorem State.advance_draws : (s.advance).draws = s.draws := rfl

/-! ### pop -/

@[simp] theorem State.pop_memory : (s.pop).memory = s.memory := rfl
@[simp] theorem State.pop_V : (s.pop).V = s.V := rfl
@[simp] theorem State.pop_I : (s.pop).I = s.I := rfl
@[simp] theorem State.pop_PC : (s.pop).PC = s.PC := rfl
@[simp] theorem State.pop_stack : (s.pop).stack = s.stack := rfl
@[simp] theorem State.pop_SP : (s.pop).SP = ⟨s.SP.val - 1, by omega⟩ := rfl
@[simp] theorem State.pop_DT : (s.pop).DT = s.DT := rfl
@[simp] theorem State.pop_ST : (s.pop).ST = s.ST := rfl
@[simp] theorem State.pop_fb : (s.pop).fb = s.fb := rfl
@[simp] theorem State.pop_keys : (s.pop).keys = s.keys := rfl
@[simp] theorem State.pop_rnd : (s.pop).rnd = s.rnd := rfl
@[simp] theorem State.pop_draws : (s.pop).draws = s.draws := rfl

/-! ### withFb -/

@[simp] theorem State.withFb_memory (fb : FrameBuffer) : (s.withFb fb).memory = s.memory := rfl
@[simp] theorem State.withFb_V (fb : FrameBuffer) : (s.withFb fb).V = s.V := rfl
@[simp] theorem State.withFb_I (fb : FrameBuffer) : (s.withFb fb).I = s.I := rfl
@[simp] theorem State.withFb_PC (fb : FrameBuffer) : (s.withFb fb).PC = s.PC := rfl
@[simp] theorem State.withFb_stack (fb : FrameBuffer) : (s.withFb fb).stack = s.stack := rfl
@[simp] theorem State.withFb_SP (fb : FrameBuffer) : (s.withFb fb).SP = s.SP := rfl
@[simp] theorem State.withFb_DT (fb : FrameBuffer) : (s.withFb fb).DT = s.DT := rfl
@[simp] theorem State.withFb_ST (fb : FrameBuffer) : (s.withFb fb).ST = s.ST := rfl
@[simp] theorem State.withFb_fb (fb : FrameBuffer) : (s.withFb fb).fb = fb := rfl
@[simp] theorem State.withFb_keys (fb : FrameBuffer) : (s.withFb fb).keys = s.keys := rfl
@[simp] theorem State.withFb_rnd (fb : FrameBuffer) : (s.withFb fb).rnd = s.rnd := rfl
@[simp] theorem State.withFb_draws (fb : FrameBuffer) : (s.withFb fb).draws = s.draws := rfl

/-! ### present -/

@[simp] theorem State.present_memory (ks : BitVec 16) (b : Byte) : (s.present ks b).memory = s.memory := rfl
@[simp] theorem State.present_V (ks : BitVec 16) (b : Byte) : (s.present ks b).V = s.V := rfl
@[simp] theorem State.present_I (ks : BitVec 16) (b : Byte) : (s.present ks b).I = s.I := rfl
@[simp] theorem State.present_PC (ks : BitVec 16) (b : Byte) : (s.present ks b).PC = s.PC := rfl
@[simp] theorem State.present_stack (ks : BitVec 16) (b : Byte) : (s.present ks b).stack = s.stack := rfl
@[simp] theorem State.present_SP (ks : BitVec 16) (b : Byte) : (s.present ks b).SP = s.SP := rfl
@[simp] theorem State.present_DT (ks : BitVec 16) (b : Byte) : (s.present ks b).DT = s.DT := rfl
@[simp] theorem State.present_ST (ks : BitVec 16) (b : Byte) : (s.present ks b).ST = s.ST := rfl
@[simp] theorem State.present_fb (ks : BitVec 16) (b : Byte) : (s.present ks b).fb = s.fb := rfl
@[simp] theorem State.present_keys (ks : BitVec 16) (b : Byte) : (s.present ks b).keys = ks := rfl
@[simp] theorem State.present_rnd (ks : BitVec 16) (b : Byte) : (s.present ks b).rnd = some b := rfl
@[simp] theorem State.present_draws (ks : BitVec 16) (b : Byte) : (s.present ks b).draws = s.draws := rfl

/-! ### consumeRandom -/

@[simp] theorem State.consumeRandom_memory : (s.consumeRandom).memory = s.memory := rfl
@[simp] theorem State.consumeRandom_V : (s.consumeRandom).V = s.V := rfl
@[simp] theorem State.consumeRandom_I : (s.consumeRandom).I = s.I := rfl
@[simp] theorem State.consumeRandom_PC : (s.consumeRandom).PC = s.PC := rfl
@[simp] theorem State.consumeRandom_stack : (s.consumeRandom).stack = s.stack := rfl
@[simp] theorem State.consumeRandom_SP : (s.consumeRandom).SP = s.SP := rfl
@[simp] theorem State.consumeRandom_DT : (s.consumeRandom).DT = s.DT := rfl
@[simp] theorem State.consumeRandom_ST : (s.consumeRandom).ST = s.ST := rfl
@[simp] theorem State.consumeRandom_fb : (s.consumeRandom).fb = s.fb := rfl
@[simp] theorem State.consumeRandom_keys : (s.consumeRandom).keys = s.keys := rfl
@[simp] theorem State.consumeRandom_rnd : (s.consumeRandom).rnd = none := rfl
@[simp] theorem State.consumeRandom_draws : (s.consumeRandom).draws = s.draws + 1 := rfl

/-! ### writeFlag -/

@[simp] theorem State.writeFlag_memory (flag : Bool) : (s.writeFlag flag).memory = s.memory := rfl
@[simp] theorem State.writeFlag_V (flag : Bool) : (s.writeFlag flag).V = s.V.set 15 (flagByte flag) := rfl
@[simp] theorem State.writeFlag_I (flag : Bool) : (s.writeFlag flag).I = s.I := rfl
@[simp] theorem State.writeFlag_PC (flag : Bool) : (s.writeFlag flag).PC = s.PC := rfl
@[simp] theorem State.writeFlag_stack (flag : Bool) : (s.writeFlag flag).stack = s.stack := rfl
@[simp] theorem State.writeFlag_SP (flag : Bool) : (s.writeFlag flag).SP = s.SP := rfl
@[simp] theorem State.writeFlag_DT (flag : Bool) : (s.writeFlag flag).DT = s.DT := rfl
@[simp] theorem State.writeFlag_ST (flag : Bool) : (s.writeFlag flag).ST = s.ST := rfl
@[simp] theorem State.writeFlag_fb (flag : Bool) : (s.writeFlag flag).fb = s.fb := rfl
@[simp] theorem State.writeFlag_keys (flag : Bool) : (s.writeFlag flag).keys = s.keys := rfl
@[simp] theorem State.writeFlag_rnd (flag : Bool) : (s.writeFlag flag).rnd = s.rnd := rfl
@[simp] theorem State.writeFlag_draws (flag : Bool) : (s.writeFlag flag).draws = s.draws := rfl

/-! ### writeResultFlag -/

@[simp] theorem State.writeResultFlag_memory (x : Nibble) (v : Byte) (flag : Bool) : (s.writeResultFlag x v flag).memory = s.memory := rfl
@[simp] theorem State.writeResultFlag_I (x : Nibble) (v : Byte) (flag : Bool) : (s.writeResultFlag x v flag).I = s.I := rfl
@[simp] theorem State.writeResultFlag_PC (x : Nibble) (v : Byte) (flag : Bool) : (s.writeResultFlag x v flag).PC = s.PC := rfl
@[simp] theorem State.writeResultFlag_stack (x : Nibble) (v : Byte) (flag : Bool) : (s.writeResultFlag x v flag).stack = s.stack := rfl
@[simp] theorem State.writeResultFlag_SP (x : Nibble) (v : Byte) (flag : Bool) : (s.writeResultFlag x v flag).SP = s.SP := rfl
@[simp] theorem State.writeResultFlag_DT (x : Nibble) (v : Byte) (flag : Bool) : (s.writeResultFlag x v flag).DT = s.DT := rfl
@[simp] theorem State.writeResultFlag_ST (x : Nibble) (v : Byte) (flag : Bool) : (s.writeResultFlag x v flag).ST = s.ST := rfl
@[simp] theorem State.writeResultFlag_fb (x : Nibble) (v : Byte) (flag : Bool) : (s.writeResultFlag x v flag).fb = s.fb := rfl
@[simp] theorem State.writeResultFlag_keys (x : Nibble) (v : Byte) (flag : Bool) : (s.writeResultFlag x v flag).keys = s.keys := rfl
@[simp] theorem State.writeResultFlag_rnd (x : Nibble) (v : Byte) (flag : Bool) : (s.writeResultFlag x v flag).rnd = s.rnd := rfl
@[simp] theorem State.writeResultFlag_draws (x : Nibble) (v : Byte) (flag : Bool) : (s.writeResultFlag x v flag).draws = s.draws := rfl

/-! ### The accessors through the updates that do not touch what they read -/

@[simp] theorem State.memWrite_reg (a : Nat) (b : Byte) (r : Nibble) : (s.memWrite a b).reg r = s.reg r := rfl
@[simp] theorem State.memWrite_slot (a : Nat) (b : Byte) (k : Nibble) : (s.memWrite a b).slot k = s.slot k := rfl
@[simp] theorem State.memWrite_pixel (a : Nat) (b : Byte) (px : BitVec 6) (py : BitVec 5) : (s.memWrite a b).pixel px py = s.pixel px py := rfl
@[simp] theorem State.memWrite_randomByte (a : Nat) (b : Byte) : (s.memWrite a b).randomByte = s.randomByte := rfl
@[simp] theorem State.memWrite_top (a : Nat) (b : Byte) : (s.memWrite a b).top = s.top := rfl
@[simp] theorem State.writeReg_memRead (x : Nibble) (b : Byte) (c : Nat) : (s.writeReg x b).memRead c = s.memRead c := rfl
@[simp] theorem State.writeReg_slot (x : Nibble) (b : Byte) (k : Nibble) : (s.writeReg x b).slot k = s.slot k := rfl
@[simp] theorem State.writeReg_pixel (x : Nibble) (b : Byte) (px : BitVec 6) (py : BitVec 5) : (s.writeReg x b).pixel px py = s.pixel px py := rfl
@[simp] theorem State.writeReg_randomByte (x : Nibble) (b : Byte) : (s.writeReg x b).randomByte = s.randomByte := rfl
@[simp] theorem State.writeReg_top (x : Nibble) (b : Byte) : (s.writeReg x b).top = s.top := rfl
@[simp] theorem State.writeI_reg (a : Addr) (r : Nibble) : (s.writeI a).reg r = s.reg r := rfl
@[simp] theorem State.writeI_memRead (a : Addr) (c : Nat) : (s.writeI a).memRead c = s.memRead c := rfl
@[simp] theorem State.writeI_slot (a : Addr) (k : Nibble) : (s.writeI a).slot k = s.slot k := rfl
@[simp] theorem State.writeI_pixel (a : Addr) (px : BitVec 6) (py : BitVec 5) : (s.writeI a).pixel px py = s.pixel px py := rfl
@[simp] theorem State.writeI_randomByte (a : Addr) : (s.writeI a).randomByte = s.randomByte := rfl
@[simp] theorem State.writeI_top (a : Addr) : (s.writeI a).top = s.top := rfl
@[simp] theorem State.writeDT_reg (b : Byte) (r : Nibble) : (s.writeDT b).reg r = s.reg r := rfl
@[simp] theorem State.writeDT_memRead (b : Byte) (c : Nat) : (s.writeDT b).memRead c = s.memRead c := rfl
@[simp] theorem State.writeDT_slot (b : Byte) (k : Nibble) : (s.writeDT b).slot k = s.slot k := rfl
@[simp] theorem State.writeDT_pixel (b : Byte) (px : BitVec 6) (py : BitVec 5) : (s.writeDT b).pixel px py = s.pixel px py := rfl
@[simp] theorem State.writeDT_randomByte (b : Byte) : (s.writeDT b).randomByte = s.randomByte := rfl
@[simp] theorem State.writeDT_top (b : Byte) : (s.writeDT b).top = s.top := rfl
@[simp] theorem State.writeST_reg (b : Byte) (r : Nibble) : (s.writeST b).reg r = s.reg r := rfl
@[simp] theorem State.writeST_memRead (b : Byte) (c : Nat) : (s.writeST b).memRead c = s.memRead c := rfl
@[simp] theorem State.writeST_slot (b : Byte) (k : Nibble) : (s.writeST b).slot k = s.slot k := rfl
@[simp] theorem State.writeST_pixel (b : Byte) (px : BitVec 6) (py : BitVec 5) : (s.writeST b).pixel px py = s.pixel px py := rfl
@[simp] theorem State.writeST_randomByte (b : Byte) : (s.writeST b).randomByte = s.randomByte := rfl
@[simp] theorem State.writeST_top (b : Byte) : (s.writeST b).top = s.top := rfl
@[simp] theorem State.jump_reg (a : Addr) (r : Nibble) : (s.jump a).reg r = s.reg r := rfl
@[simp] theorem State.jump_memRead (a : Addr) (c : Nat) : (s.jump a).memRead c = s.memRead c := rfl
@[simp] theorem State.jump_slot (a : Addr) (k : Nibble) : (s.jump a).slot k = s.slot k := rfl
@[simp] theorem State.jump_pixel (a : Addr) (px : BitVec 6) (py : BitVec 5) : (s.jump a).pixel px py = s.pixel px py := rfl
@[simp] theorem State.jump_randomByte (a : Addr) : (s.jump a).randomByte = s.randomByte := rfl
@[simp] theorem State.jump_top (a : Addr) : (s.jump a).top = s.top := rfl
@[simp] theorem State.advance_reg (r : Nibble) : (s.advance).reg r = s.reg r := rfl
@[simp] theorem State.advance_memRead (c : Nat) : (s.advance).memRead c = s.memRead c := rfl
@[simp] theorem State.advance_slot (k : Nibble) : (s.advance).slot k = s.slot k := rfl
@[simp] theorem State.advance_pixel (px : BitVec 6) (py : BitVec 5) : (s.advance).pixel px py = s.pixel px py := rfl
@[simp] theorem State.advance_randomByte : (s.advance).randomByte = s.randomByte := rfl
@[simp] theorem State.advance_top : (s.advance).top = s.top := rfl
@[simp] theorem State.pop_reg (r : Nibble) : (s.pop).reg r = s.reg r := rfl
@[simp] theorem State.pop_memRead (c : Nat) : (s.pop).memRead c = s.memRead c := rfl
@[simp] theorem State.pop_slot (k : Nibble) : (s.pop).slot k = s.slot k := rfl
@[simp] theorem State.pop_pixel (px : BitVec 6) (py : BitVec 5) : (s.pop).pixel px py = s.pixel px py := rfl
@[simp] theorem State.pop_randomByte : (s.pop).randomByte = s.randomByte := rfl
@[simp] theorem State.withFb_reg (fb : FrameBuffer) (r : Nibble) : (s.withFb fb).reg r = s.reg r := rfl
@[simp] theorem State.withFb_memRead (fb : FrameBuffer) (c : Nat) : (s.withFb fb).memRead c = s.memRead c := rfl
@[simp] theorem State.withFb_slot (fb : FrameBuffer) (k : Nibble) : (s.withFb fb).slot k = s.slot k := rfl
@[simp] theorem State.withFb_randomByte (fb : FrameBuffer) : (s.withFb fb).randomByte = s.randomByte := rfl
@[simp] theorem State.withFb_top (fb : FrameBuffer) : (s.withFb fb).top = s.top := rfl
@[simp] theorem State.present_reg (ks : BitVec 16) (b : Byte) (r : Nibble) : (s.present ks b).reg r = s.reg r := rfl
@[simp] theorem State.present_memRead (ks : BitVec 16) (b : Byte) (c : Nat) : (s.present ks b).memRead c = s.memRead c := rfl
@[simp] theorem State.present_slot (ks : BitVec 16) (b : Byte) (k : Nibble) : (s.present ks b).slot k = s.slot k := rfl
@[simp] theorem State.present_pixel (ks : BitVec 16) (b : Byte) (px : BitVec 6) (py : BitVec 5) : (s.present ks b).pixel px py = s.pixel px py := rfl
@[simp] theorem State.present_top (ks : BitVec 16) (b : Byte) : (s.present ks b).top = s.top := rfl
@[simp] theorem State.consumeRandom_reg (r : Nibble) : (s.consumeRandom).reg r = s.reg r := rfl
@[simp] theorem State.consumeRandom_memRead (c : Nat) : (s.consumeRandom).memRead c = s.memRead c := rfl
@[simp] theorem State.consumeRandom_slot (k : Nibble) : (s.consumeRandom).slot k = s.slot k := rfl
@[simp] theorem State.consumeRandom_pixel (px : BitVec 6) (py : BitVec 5) : (s.consumeRandom).pixel px py = s.pixel px py := rfl
@[simp] theorem State.consumeRandom_top : (s.consumeRandom).top = s.top := rfl
@[simp] theorem State.writeFlag_memRead (flag : Bool) (c : Nat) : (s.writeFlag flag).memRead c = s.memRead c := rfl
@[simp] theorem State.writeFlag_slot (flag : Bool) (k : Nibble) : (s.writeFlag flag).slot k = s.slot k := rfl
@[simp] theorem State.writeFlag_pixel (flag : Bool) (px : BitVec 6) (py : BitVec 5) : (s.writeFlag flag).pixel px py = s.pixel px py := rfl
@[simp] theorem State.writeFlag_randomByte (flag : Bool) : (s.writeFlag flag).randomByte = s.randomByte := rfl
@[simp] theorem State.writeFlag_top (flag : Bool) : (s.writeFlag flag).top = s.top := rfl
@[simp] theorem State.writeResultFlag_memRead (x : Nibble) (v : Byte) (flag : Bool) (c : Nat) : (s.writeResultFlag x v flag).memRead c = s.memRead c := rfl
@[simp] theorem State.writeResultFlag_slot (x : Nibble) (v : Byte) (flag : Bool) (k : Nibble) : (s.writeResultFlag x v flag).slot k = s.slot k := rfl
@[simp] theorem State.writeResultFlag_pixel (x : Nibble) (v : Byte) (flag : Bool) (px : BitVec 6) (py : BitVec 5) : (s.writeResultFlag x v flag).pixel px py = s.pixel px py := rfl
@[simp] theorem State.writeResultFlag_randomByte (x : Nibble) (v : Byte) (flag : Bool) : (s.writeResultFlag x v flag).randomByte = s.randomByte := rfl
@[simp] theorem State.writeResultFlag_top (x : Nibble) (v : Byte) (flag : Bool) : (s.writeResultFlag x v flag).top = s.top := rfl

/-! ### Updates that branch -/

/-- A skip moves the program counter by 4 or by 2 and does nothing else (R76). -/
theorem State.skipIf_eq_jump (c : Bool) : s.skipIf c = s.jump (if c then s.PC + 4 else s.PC + 2) := by
  cases c <;> rfl

/-- Everything `push` can do: on a full stack nothing, else the slot `SP` and `SP + 1` (R16). -/
theorem State.push_cases (a : Addr) :
    (s.SP.val = 16 ∧ s.push a = s) ∨
    (∃ h : s.SP.val < 16, s.push a =
      { s with stack := s.stack.set s.SP.val a h, SP := ⟨s.SP.val + 1, by omega⟩ }) := by
  unfold State.push
  split
  · exact .inr ⟨‹_›, rfl⟩
  · exact .inl ⟨by omega, rfl⟩

end Sys2Proof.Machine
end

