-- ==== Sys2Proof/Laws/Memory.lean ====
section
/-! SUPPORT. The laws of memory: read after write, the canonical form kept, equal reads give equal memories. -/

namespace Sys2Proof.Machine

theorem Memory.read_drop (m : Memory) (a c : Nat) :
    Memory.read (Memory.drop m a) c = if c = a then unlisted a else Memory.read m c := by
  induction m with
  | nil => simp [Memory.drop, Memory.read]; intro h; rw [h]
  | cons e m ih =>
    obtain ⟨k, b⟩ := e
    simp only [Memory.drop] at ih
    by_cases hk : k = a
    · subst hk
      simp only [Memory.drop, List.filter, bne_self_eq_false, ih, Memory.read]
      split <;> rename_i h
      · rfl
      · rw [if_neg (Ne.symm h)]
    · have hb : (k != a) = true := by simpa using hk
      simp only [Memory.drop, List.filter, hb, Memory.read, ih]
      by_cases hc : k = c
      · subst hc; simp [hk]
      · simp [hc]

theorem Memory.read_place (m : Memory) (a c : Nat) (b : Byte) (h : ∀ e ∈ m, e.1 ≠ a) :
    Memory.read (Memory.place m a b) c = if c = a then b else Memory.read m c := by
  induction m with
  | nil =>
    by_cases hc : c = a
    · subst hc; simp [Memory.place, Memory.read]
    · simp [Memory.place, Memory.read, hc, Ne.symm hc]
  | cons e m ih =>
    obtain ⟨k, d⟩ := e
    have hk : k ≠ a := h (k, d) (by simp)
    have ih := ih (fun e he => h e (by simp [he]))
    unfold Memory.place
    split
    · by_cases hc : c = a
      · subst hc; simp [Memory.read]
      · simp [Memory.read, hc, Ne.symm hc]
    · simp only [Memory.read, ih]
      by_cases hc : k = c
      · subst hc; simp [hk]
      · simp [hc]

theorem Memory.drop_ne (m : Memory) (a : Nat) : ∀ e ∈ Memory.drop m a, e.1 ≠ a := by
  intro e he
  simpa [Memory.drop] using (List.mem_filter.mp he).2

/-- A read after a write: the byte written at its address, every other address as before. -/
@[simp] theorem Memory.read_write (m : Memory) (a c : Nat) (b : Byte) :
    Memory.read (Memory.write m a b) c = if c = a then b else Memory.read m c := by
  unfold Memory.write
  split
  · rename_i h; rw [Memory.read_drop, h]
  · rw [Memory.read_place _ _ _ _ (Memory.drop_ne m a), Memory.read_drop]
    by_cases hc : c = a <;> simp [hc]

theorem Memory.wf_nil : Memory.wf [] := by simp [Memory.wf]

theorem Memory.wf_drop {m : Memory} (h : Memory.wf m) (a : Nat) : Memory.wf (Memory.drop m a) :=
  ⟨h.1.filter _, fun c hc => h.2 c (List.mem_filter.mp hc).1⟩

theorem Memory.mem_place {m : Memory} {a : Nat} {b : Byte} {e : Host.Cell}
    (h : e ∈ Memory.place m a b) : e = (a, b) ∨ e ∈ m := by
  induction m with
  | nil => simpa [Memory.place] using h
  | cons f m ih =>
    obtain ⟨k, d⟩ := f
    unfold Memory.place at h
    split at h
    · simpa using h
    · rcases List.mem_cons.mp h with h | h
      · exact .inr (by simp [h])
      · rcases ih h with h | h
        · exact .inl h
        · exact .inr (by simp [h])

theorem Memory.wf_place {m : Memory} (h : Memory.wf m) {a : Nat} {b : Byte} (ha : a < Config.memSize)
    (hb : b ≠ unlisted a) (hn : ∀ e ∈ m, e.1 ≠ a) : Memory.wf (Memory.place m a b) := by
  refine ⟨?_, fun e he => ?_⟩
  · have hp := h.1
    clear h
    induction m with
    | nil => simp [Memory.place]
    | cons f m ih =>
      obtain ⟨k, d⟩ := f
      have hk : k ≠ a := hn (k, d) (by simp)
      obtain ⟨h1, h2⟩ := List.pairwise_cons.mp hp
      unfold Memory.place
      split
      · rename_i hlt
        refine List.pairwise_cons.mpr ⟨fun e he => ?_, hp⟩
        rcases List.mem_cons.mp he with he | he
        · subst he; exact hlt
        · exact Nat.lt_trans hlt (h1 e he)
      · refine List.pairwise_cons.mpr ⟨fun e he => ?_, ih (fun e he => hn e (by simp [he])) h2⟩
        rcases Memory.mem_place he with he | he
        · subst he; show k < a; omega
        · exact h1 e he
  · rcases Memory.mem_place he with he | he
    · subst he; exact ⟨ha, hb⟩
    · exact h.2 e he

/-- A write inside the address space keeps the canonical form. -/
theorem Memory.wf_write {m : Memory} (h : Memory.wf m) {a : Nat} (ha : a < Config.memSize) (b : Byte) :
    Memory.wf (Memory.write m a b) := by
  unfold Memory.write
  split
  · exact Memory.wf_drop h a
  · exact Memory.wf_place (Memory.wf_drop h a) ha ‹_› (Memory.drop_ne m a)

/-- `MemWrite` keeps the canonical form, whatever the address (R31). -/
theorem State.memWrite_wf {s : State} (h : Memory.wf s.memory) (a : Nat) (b : Byte) :
    Memory.wf (s.memWrite a b).memory :=
  Memory.wf_write h (Nat.mod_lt _ (by decide)) b

/-- `MemRead` after `MemWrite`: addresses compared modulo 4096 (R31). -/
@[simp] theorem State.memRead_memWrite (s : State) (a c : Nat) (b : Byte) :
    (s.memWrite a b).memRead c = if c % 4096 = a % 4096 then b else s.memRead c := by
  simp [State.memRead, State.memWrite, Config.memSize]

@[simp] theorem State.memRead_mod (s : State) (a : Nat) : s.memRead (a % 4096) = s.memRead a := by
  simp [State.memRead, Config.memSize]

/-- After reset an address holds its reset contents (R24). -/
theorem State.reset_memRead (a : Nat) : State.reset.memRead a = unlisted (a % 4096) := rfl

end Sys2Proof.Machine
end

