-- ==== Sys2Proof/Laws/Registers.lean ====
section
/-! SUPPORT. The laws of the register file, the flag, the stack controller, the framebuffer cells and the key scan. -/

namespace Sys2Proof.Machine

/-- A register after a write of one: the byte written, or what it held. -/
@[simp] theorem State.reg_writeReg (s : State) (x r : Nibble) (b : Byte) :
    (s.writeReg x b).reg r = if r = x then b else s.reg r := by
  simp only [State.reg, State.writeReg, Vector.getElem_set]
  by_cases h : r = x
  · subst h; simp
  · have : x.toNat ≠ r.toNat := fun e => h (BitVec.eq_of_toNat_eq e.symm)
    simp [h, this]

@[simp] theorem State.reg_writeFlag (s : State) (c : Bool) (r : Nibble) :
    (s.writeFlag c).reg r = if r = 15 then flagByte c else s.reg r := by
  simp [State.writeFlag, flagReg]

/-- The result, then the flag: with `x = 15` the flag remains (R77(c)). -/
@[simp] theorem State.reg_writeResultFlag (s : State) (x r : Nibble) (v : Byte) (c : Bool) :
    (s.writeResultFlag x v c).reg r = if r = 15 then flagByte c else if r = x then v else s.reg r := by
  simp [State.writeResultFlag]

/-- A slot after a push: the pushed value in slot `SP` of a stack that is not full (R16). -/
theorem State.slot_push (s : State) (a : Addr) (k : Nibble) :
    (s.push a).slot k = if k.toNat = s.SP.val then a else s.slot k := by
  rcases s.push_cases a with ⟨h, e⟩ | ⟨h, e⟩
  · have : k.toNat ≠ s.SP.val := by have := k.isLt; omega
    rw [e, if_neg this]
  · rw [e]
    simp only [State.slot, Vector.getElem_set]
    by_cases hk : k.toNat = s.SP.val
    · simp [hk]
    · simp [hk, Ne.symm hk]

/-- `SP` after a push (R16). -/
theorem State.SP_push (s : State) (a : Addr) : (s.push a).SP.val = min (s.SP.val + 1) 16 := by
  rcases s.push_cases a with ⟨h, e⟩ | ⟨h, e⟩
  · rw [e]; omega
  · rw [e]; show s.SP.val + 1 = _; omega

/-- `push` touches the stack alone. -/
theorem State.push_frame (s : State) (a : Addr) :
    (s.push a).memory = s.memory ∧ (s.push a).V = s.V ∧ (s.push a).I = s.I ∧ (s.push a).PC = s.PC ∧
    (s.push a).DT = s.DT ∧ (s.push a).ST = s.ST ∧ (s.push a).fb = s.fb ∧ (s.push a).keys = s.keys ∧
    (s.push a).rnd = s.rnd ∧ (s.push a).draws = s.draws := by
  rcases s.push_cases a with ⟨_, e⟩ | ⟨_, e⟩ <;> rw [e] <;> simp

/-- A cell after a write of one: the value written, or what it held. -/
@[simp] theorem FrameBuffer.get_put (fb : FrameBuffer) (x px : BitVec 6) (y py : BitVec 5) (b : Bool) :
    FrameBuffer.get (FrameBuffer.put fb x y b) px py = if px = x ∧ py = y then b else FrameBuffer.get fb px py := by
  simp only [FrameBuffer.get, FrameBuffer.put, Vector.getElem_set]
  by_cases hy : py = y
  · subst hy
    by_cases hx : px = x
    · subst hx; simp
    · have : x.toNat ≠ px.toNat := fun e => hx (BitVec.eq_of_toNat_eq e.symm)
      simp [hx, this]
  · have : y.toNat ≠ py.toNat := fun e => hy (BitVec.eq_of_toNat_eq e.symm)
    simp [hy, this]

@[simp] theorem FrameBuffer.get_clear (px : BitVec 6) (py : BitVec 5) :
    FrameBuffer.get FrameBuffer.clear px py = false := by
  simp [FrameBuffer.get, FrameBuffer.clear]

/-- The key scan finds the least key that is down, or none is down (R133). -/
theorem firstKeyDown_spec (keys : BitVec 16) :
    (∃ k, firstKeyDown keys = some k ∧ k < 16 ∧ keys.getLsbD k = true ∧ ∀ j < k, keys.getLsbD j = false) ∨
    (firstKeyDown keys = none ∧ keys = 0) := by
  cases h : firstKeyDown keys with
  | some k =>
    rw [firstKeyDown, List.find?_range_eq_some] at h
    exact .inl ⟨k, rfl, by simpa using h.2.1, h.1, fun j hj => by simpa using h.2.2 j hj⟩
  | none =>
    refine .inr ⟨rfl, BitVec.eq_of_getLsbD_eq fun i hi => ?_⟩
    rw [firstKeyDown, List.find?_eq_none] at h
    simpa using h i (by simpa using hi)

end Sys2Proof.Machine
end

