-- ==== Sys2Proof/Laws/Blocks.lean ====
section
/-! SUPPORT. What a block store and a block load do (R114, R115), by induction on the number of registers. -/

namespace Sys2Proof.Machine

theorem State.storeBlock_zero (s : State) : s.storeBlock 0 = s := rfl

theorem State.storeBlock_succ (s : State) (n : Nat) : s.storeBlock (n + 1) =
    (s.storeBlock n).memWrite ((s.storeBlock n).effective n) ((s.storeBlock n).reg (BitVec.ofNat 4 n)) := by
  simp [State.storeBlock, List.range_succ]

theorem State.loadBlock_zero (s : State) : s.loadBlock 0 = s := rfl

theorem State.loadBlock_succ (s : State) (n : Nat) : s.loadBlock (n + 1) =
    (s.loadBlock n).writeReg (BitVec.ofNat 4 n) ((s.loadBlock n).memRead ((s.loadBlock n).effective n)) := by
  simp [State.loadBlock, List.range_succ]

/-- A block store touches memory alone. -/
theorem State.storeBlock_frame (s : State) (n : Nat) : s.storeBlock n = { s with memory := (s.storeBlock n).memory } := by
  induction n with
  | zero => rfl
  | succ n ih => rw [State.storeBlock_succ, ih]; rfl

/-- A block load touches the registers alone. -/
theorem State.loadBlock_frame (s : State) (n : Nat) : s.loadBlock n = { s with V := (s.loadBlock n).V } := by
  induction n with
  | zero => rfl
  | succ n ih => rw [State.loadBlock_succ, ih]; rfl

@[simp] theorem State.storeBlock_reg (s : State) (n : Nat) (r : Nibble) : (s.storeBlock n).reg r = s.reg r := by
  rw [State.storeBlock_frame]; rfl

@[simp] theorem State.storeBlock_I (s : State) (n : Nat) : (s.storeBlock n).I = s.I := by
  rw [State.storeBlock_frame]

@[simp] theorem State.loadBlock_I (s : State) (n : Nat) : (s.loadBlock n).I = s.I := by
  rw [State.loadBlock_frame]

@[simp] theorem State.loadBlock_memRead (s : State) (n c : Nat) : (s.loadBlock n).memRead c = s.memRead c := by
  rw [State.loadBlock_frame]; rfl

/-- Memory after a block store of `n` registers, at most 16: register `k` at `I + k` (R114). -/
theorem State.storeBlock_memRead_at (s : State) {n k : Nat} (hn : n ≤ 16) (hk : k < n) :
    (s.storeBlock n).memRead (s.I.toNat + k) = s.reg (BitVec.ofNat 4 k) := by
  induction n with
  | zero => omega
  | succ n ih =>
    rw [State.storeBlock_succ, State.memRead_memWrite]
    simp only [State.effective, State.storeBlock_I, State.storeBlock_reg, Config.memSize, Nat.mod_mod]
    by_cases h : k = n
    · subst h; simp
    · rw [if_neg (by omega), ih (by omega) (by omega)]

/-- Memory after a block store, away from the addresses stored to (R114). -/
theorem State.storeBlock_memRead_away (s : State) {n a : Nat} (h : ∀ k, k < n → a % 4096 ≠ (s.I.toNat + k) % 4096) :
    (s.storeBlock n).memRead a = s.memRead a := by
  induction n with
  | zero => rfl
  | succ n ih =>
    rw [State.storeBlock_succ, State.memRead_memWrite]
    simp only [State.effective, State.storeBlock_I, Config.memSize, Nat.mod_mod]
    rw [if_neg (h n (by omega)), ih (fun k hk => h k (by omega))]

/-- A block store keeps memory's canonical form. -/
theorem State.storeBlock_wf {s : State} (h : Memory.wf s.memory) (n : Nat) : Memory.wf (s.storeBlock n).memory := by
  induction n with
  | zero => exact h
  | succ n ih => rw [State.storeBlock_succ]; exact State.memWrite_wf ih _ _

/-- The registers after a block load of `n` registers, at most 16: register `k` from `I + k` (R115). -/
theorem State.reg_loadBlock (s : State) {n : Nat} (hn : n ≤ 16) (r : Nibble) :
    (s.loadBlock n).reg r = if r.toNat < n then s.memRead (s.I.toNat + r.toNat) else s.reg r := by
  induction n with
  | zero => simp [State.loadBlock_zero]
  | succ n ih =>
    rw [State.loadBlock_succ, State.reg_writeReg, ih (by omega)]
    have h4 : (BitVec.ofNat 4 n).toNat = n := by simp [BitVec.toNat_ofNat]; omega
    by_cases h : r = BitVec.ofNat 4 n
    · have hr : r.toNat = n := by rw [h, h4]
      rw [if_pos h, if_pos (by omega), hr]
      simp [State.effective, Config.memSize]
    · have : r.toNat ≠ n := fun e => h (BitVec.eq_of_toNat_eq (by rw [e, h4]))
      rw [if_neg h]
      by_cases h' : r.toNat < n
      · rw [if_pos h', if_pos (by omega)]
      · rw [if_neg h', if_neg (by omega)]

end Sys2Proof.Machine
end

