-- ==== Sys2Proof/Laws/Decode.lean ====
section
/-! SUPPORT. The fields of the words of each format (R51, R52), and a word rebuilt from its fields. -/

namespace Sys2Proof

theorem field_ext {w : Nat} {a b : BitVec w} (h : ∀ i < w, a.getLsbD i = b.getLsbD i) : a = b :=
  BitVec.eq_of_getLsbD_eq fun i hi => h i hi

section A
variable (op : Nibble) (nnn : Addr)
@[simp] theorem opOf_formA : opOf (formA op nnn) = op := by
  apply field_ext; intro i hi
  have h1 : ¬ (12 + i < 12) := by omega
  have h2 : 12 + i - 12 = i := by omega
  simp only [opOf, formA, BitVec.getLsbD_extractLsb', BitVec.getLsbD_append]
  simp [h1, h2, hi]
@[simp] theorem nnnOf_formA : nnnOf (formA op nnn) = nnn := by
  apply field_ext; intro i hi
  simp only [nnnOf, formA, BitVec.getLsbD_extractLsb', BitVec.getLsbD_append]
  simp [hi]
end A

section I
variable (op x : Nibble) (nn : Byte)
@[simp] theorem opOf_formI : opOf (formI op x nn) = op := by
  apply field_ext; intro i hi
  have h1 : ¬ (12 + i < 8) := by omega
  have h2 : ¬ (12 + i - 8 < 4) := by omega
  have h3 : 12 + i - 8 - 4 = i := by omega
  simp only [opOf, formI, BitVec.getLsbD_extractLsb', BitVec.getLsbD_append]
  simp [h1, h2, h3, hi]
@[simp] theorem xOf_formI : xOf (formI op x nn) = x := by
  apply field_ext; intro i hi
  have h1 : ¬ (8 + i < 8) := by omega
  have h2 : (8 + i - 8 < 4) := by omega
  have h3 : 8 + i - 8 = i := by omega
  simp only [xOf, formI, BitVec.getLsbD_extractLsb', BitVec.getLsbD_append]
  simp [h1, h3, hi]
@[simp] theorem nnOf_formI : nnOf (formI op x nn) = nn := by
  apply field_ext; intro i hi
  simp only [nnOf, formI, BitVec.getLsbD_extractLsb', BitVec.getLsbD_append]
  simp [hi]
end I

section R
variable (op x y n : Nibble)
@[simp] theorem opOf_formR : opOf (formR op x y n) = op := by
  apply field_ext; intro i hi
  have h1 : ¬ (12 + i < 4) := by omega
  have h2 : ¬ (12 + i - 4 < 4) := by omega
  have h3 : ¬ (12 + i - 4 - 4 < 4) := by omega
  have h4 : 12 + i - 4 - 4 - 4 = i := by omega
  simp only [opOf, formR, BitVec.getLsbD_extractLsb', BitVec.getLsbD_append]
  simp [h1, h2, h3, h4, hi]
@[simp] theorem xOf_formR : xOf (formR op x y n) = x := by
  apply field_ext; intro i hi
  have h1 : ¬ (8 + i < 4) := by omega
  have h2 : ¬ (8 + i - 4 < 4) := by omega
  have h3 : 8 + i - 4 - 4 = i := by omega
  simp only [xOf, formR, BitVec.getLsbD_extractLsb', BitVec.getLsbD_append]
  simp [h1, h2, h3, hi]
@[simp] theorem yOf_formR : yOf (formR op x y n) = y := by
  apply field_ext; intro i hi
  have h1 : ¬ (4 + i < 4) := by omega
  have h3 : 4 + i - 4 = i := by omega
  simp only [yOf, formR, BitVec.getLsbD_extractLsb', BitVec.getLsbD_append]
  simp [h1, h3, hi]
@[simp] theorem nOf_formR : nOf (formR op x y n) = n := by
  apply field_ext; intro i hi
  simp only [nOf, formR, BitVec.getLsbD_extractLsb', BitVec.getLsbD_append]
  simp [hi]
end R

/-- A word is its `op` and `nnn` fields (format A). -/
theorem formA_fields (w : Word) : formA (opOf w) (nnnOf w) = w := by
  apply field_ext; intro i hi
  simp only [opOf, nnnOf, formA, BitVec.getLsbD_append, BitVec.getLsbD_extractLsb']
  by_cases h : i < 12
  · simp [h]
  · have h2 : 12 + (i - 12) = i := by omega
    have h3 : i - 12 < 4 := by omega
    simp [h, h2, h3]

/-- A word is its `op`, `x` and `nn` fields (formats I and X). -/
theorem formI_fields (w : Word) : formI (opOf w) (xOf w) (nnOf w) = w := by
  apply field_ext; intro i hi
  simp only [opOf, xOf, nnOf, formI, BitVec.getLsbD_append, BitVec.getLsbD_extractLsb']
  by_cases h : i < 8
  · simp [h]
  · by_cases h' : i - 8 < 4
    · have h2 : 8 + (i - 8) = i := by omega
      simp [h, h', h2]
    · have h2 : 12 + (i - 8 - 4) = i := by omega
      have h3 : i - 8 - 4 < 4 := by omega
      simp [h, h', h2, h3]

/-- A word is its four nibbles (formats R and D). -/
theorem formR_fields (w : Word) : formR (opOf w) (xOf w) (yOf w) (nOf w) = w := by
  apply field_ext; intro i hi
  simp only [opOf, xOf, yOf, nOf, formR, BitVec.getLsbD_append, BitVec.getLsbD_extractLsb']
  by_cases h : i < 4
  · simp [h]
  · by_cases h' : i - 4 < 4
    · have h2 : 4 + (i - 4) = i := by omega
      simp [h, h', h2]
    · by_cases h'' : i - 4 - 4 < 4
      · have h2 : 8 + (i - 4 - 4) = i := by omega
        simp [h, h', h'', h2]
      · have h2 : 12 + (i - 4 - 4 - 4) = i := by omega
        have h3 : i - 4 - 4 - 4 < 4 := by omega
        simp [h, h', h'', h2, h3]

/-! ## The masks of R55 -/

theorem and_F000 (w : Word) : w &&& 0xF000 = formA (opOf w) 0 := by
  apply field_ext; intro i hi
  simp only [BitVec.getLsbD_and, formA, opOf, BitVec.getLsbD_append, BitVec.getLsbD_extractLsb']
  interval_cases i <;> simp

theorem and_F00F (w : Word) : w &&& 0xF00F = formR (opOf w) 0 0 (nOf w) := by
  apply field_ext; intro i hi
  simp only [BitVec.getLsbD_and, formR, opOf, nOf, BitVec.getLsbD_append, BitVec.getLsbD_extractLsb']
  interval_cases i <;> simp

theorem and_F0FF (w : Word) : w &&& 0xF0FF = formI (opOf w) 0 (nnOf w) := by
  apply field_ext; intro i hi
  simp only [BitVec.getLsbD_and, formI, opOf, nnOf, BitVec.getLsbD_append, BitVec.getLsbD_extractLsb']
  interval_cases i <;> simp

theorem formA_inj {a b : Nibble} {c d : Addr} : formA a c = formA b d ↔ a = b ∧ c = d :=
  ⟨fun h => ⟨by simpa using congrArg opOf h, by simpa using congrArg nnnOf h⟩, fun ⟨h, k⟩ => by rw [h, k]⟩

theorem formI_inj {a b x y : Nibble} {c d : Byte} : formI a x c = formI b y d ↔ a = b ∧ x = y ∧ c = d :=
  ⟨fun h => ⟨by simpa using congrArg opOf h, by simpa using congrArg xOf h, by simpa using congrArg nnOf h⟩,
    fun ⟨h, k, l⟩ => by rw [h, k, l]⟩

theorem formR_inj {a b x y z u m n : Nibble} :
    formR a x z m = formR b y u n ↔ a = b ∧ x = y ∧ z = u ∧ m = n :=
  ⟨fun h => ⟨by simpa using congrArg opOf h, by simpa using congrArg xOf h, by simpa using congrArg yOf h,
    by simpa using congrArg nOf h⟩, fun ⟨h, k, l, o⟩ => by rw [h, k, l, o]⟩

/-- Rows matched on the family alone: mask 0xF000. -/
theorem covers_F000 (p : String) (op : Nibble) (w : Word) :
    (OpcodeRow.mk p 0xF000 (formA op 0)).covers w = true ↔ opOf w = op := by
  simp only [OpcodeRow.covers, beq_iff_eq, and_F000, formA_inj, and_true]

/-- Rows matched on the family and `n`: mask 0xF00F. -/
theorem covers_F00F (p : String) (op n : Nibble) (w : Word) :
    (OpcodeRow.mk p 0xF00F (formR op 0 0 n)).covers w = true ↔ opOf w = op ∧ nOf w = n := by
  simp only [OpcodeRow.covers, beq_iff_eq, and_F00F, formR_inj, true_and]

/-- Rows matched on the family and `nn`: mask 0xF0FF. -/
theorem covers_F0FF (p : String) (op : Nibble) (nn : Byte) (w : Word) :
    (OpcodeRow.mk p 0xF0FF (formI op 0 nn)).covers w = true ↔ opOf w = op ∧ nnOf w = nn := by
  simp only [OpcodeRow.covers, beq_iff_eq, and_F0FF, formI_inj, true_and]

/-- Rows matched in full: mask 0xFFFF, in family 0. -/
theorem covers_FFFF (p : String) (nnn : Addr) (w : Word) :
    (OpcodeRow.mk p 0xFFFF (formA 0 nnn)).covers w = true ↔ opOf w = 0 ∧ nnnOf w = nnn := by
  have h : w &&& 0xFFFF = w := by
    apply field_ext; intro i hi
    simp only [BitVec.getLsbD_and]
    interval_cases i <;> simp
  rw [OpcodeRow.covers, beq_iff_eq, h]
  exact ⟨fun h => by simp [h], fun ⟨h, k⟩ => by rw [← formA_fields w, h, k]⟩

/-- The opcode map with each row's value written by its fields. -/
theorem opcodeRows_fields : opcodeRows = [⟨"00E0", 0xFFFF, formA 0 0x0E0⟩, ⟨"00EE", 0xFFFF, formA 0 0x0EE⟩,
    ⟨"1NNN", 0xF000, formA 0x1 0⟩, ⟨"2NNN", 0xF000, formA 0x2 0⟩, ⟨"3XNN", 0xF000, formA 0x3 0⟩,
    ⟨"4XNN", 0xF000, formA 0x4 0⟩, ⟨"5XY0", 0xF00F, formR 0x5 0 0 0⟩, ⟨"6XNN", 0xF000, formA 0x6 0⟩,
    ⟨"7XNN", 0xF000, formA 0x7 0⟩, ⟨"8XY0", 0xF00F, formR 0x8 0 0 0x0⟩, ⟨"8XY1", 0xF00F, formR 0x8 0 0 0x1⟩,
    ⟨"8XY2", 0xF00F, formR 0x8 0 0 0x2⟩, ⟨"8XY3", 0xF00F, formR 0x8 0 0 0x3⟩,
    ⟨"8XY4", 0xF00F, formR 0x8 0 0 0x4⟩, ⟨"8XY5", 0xF00F, formR 0x8 0 0 0x5⟩,
    ⟨"8XY6", 0xF00F, formR 0x8 0 0 0x6⟩, ⟨"8XY7", 0xF00F, formR 0x8 0 0 0x7⟩,
    ⟨"8XYE", 0xF00F, formR 0x8 0 0 0xE⟩, ⟨"9XY0", 0xF00F, formR 0x9 0 0 0⟩,
    ⟨"ANNN", 0xF000, formA 0xA 0⟩, ⟨"BNNN", 0xF000, formA 0xB 0⟩, ⟨"CXNN", 0xF000, formA 0xC 0⟩,
    ⟨"DXYN", 0xF000, formA 0xD 0⟩, ⟨"EX9E", 0xF0FF, formI 0xE 0 0x9E⟩, ⟨"EXA1", 0xF0FF, formI 0xE 0 0xA1⟩,
    ⟨"FX07", 0xF0FF, formI 0xF 0 0x07⟩, ⟨"FX0A", 0xF0FF, formI 0xF 0 0x0A⟩, ⟨"FX15", 0xF0FF, formI 0xF 0 0x15⟩,
    ⟨"FX18", 0xF0FF, formI 0xF 0 0x18⟩, ⟨"FX1E", 0xF0FF, formI 0xF 0 0x1E⟩, ⟨"FX29", 0xF0FF, formI 0xF 0 0x29⟩,
    ⟨"FX33", 0xF0FF, formI 0xF 0 0x33⟩, ⟨"FX55", 0xF0FF, formI 0xF 0 0x55⟩, ⟨"FX65", 0xF0FF, formI 0xF 0 0x65⟩] := rfl

/-- R56's families by the fields of the word. -/
theorem ignoredWord_fields (w : Word) : ignoredWord w = true ↔
    (opOf w = 0#4 ∧ nnnOf w ≠ 0x0E0#12 ∧ nnnOf w ≠ 0x0EE#12) ∨ ((opOf w = 5#4 ∨ opOf w = 9#4) ∧ nOf w ≠ 0#4) ∨
    (opOf w = 8#4 ∧ nOf w ∈ [0x8#4, 0x9#4, 0xA#4, 0xB#4, 0xC#4, 0xD#4, 0xF#4]) ∨
    (opOf w = 0xE#4 ∧ nnOf w ∉ [0x9E#8, 0xA1#8]) ∨
    (opOf w = 0xF#4 ∧ nnOf w ∉ [0x07#8, 0x0A#8, 0x15#8, 0x18#8, 0x1E#8, 0x29#8, 0x33#8, 0x55#8, 0x65#8]) := by
  rw [show ignoredWord w = ((opOf w == 0#4 && nnnOf w != 0x0E0#12 && nnnOf w != 0x0EE#12) ||
    ((opOf w == 5#4 || opOf w == 9#4) && nOf w != 0#4) ||
    (opOf w == 8#4 && [0x8#4, 0x9#4, 0xA#4, 0xB#4, 0xC#4, 0xD#4, 0xF#4].contains (nOf w)) ||
    (opOf w == 0xE#4 && !([0x9E#8, 0xA1#8].contains (nnOf w))) ||
    (opOf w == 0xF#4 &&
      !([0x07#8, 0x0A#8, 0x15#8, 0x18#8, 0x1E#8, 0x29#8, 0x33#8, 0x55#8, 0x65#8].contains (nnOf w)))) from rfl]
  simp only [Bool.or_eq_true, Bool.and_eq_true, beq_iff_eq, bne_iff_ne, ne_eq, Bool.not_eq_true',
    List.contains_eq_mem, decide_eq_false_iff_not, decide_eq_true_eq, or_assoc, and_assoc]

/-! ## Bytes and words -/

/-- The two bytes of a word, put together, are the word (R34). -/
@[simp] theorem wordOfBytes_bytes (w : Word) : wordOfBytes (highByte w) (lowByte w) = w := by
  apply field_ext; intro i hi
  simp only [wordOfBytes, highByte, lowByte, BitVec.getLsbD_append, BitVec.getLsbD_extractLsb']
  by_cases h : i < 8
  · simp [h]
  · have h2 : 8 + (i - 8) = i := by omega
    have h3 : i - 8 < 8 := by omega
    simp [h, h2, h3]

@[simp] theorem highByte_wordOfBytes (hi lo : Byte) : highByte (wordOfBytes hi lo) = hi := by
  apply field_ext; intro i h
  have h1 : ¬ (8 + i < 8) := by omega
  have h3 : 8 + i - 8 = i := by omega
  simp only [wordOfBytes, highByte, BitVec.getLsbD_append, BitVec.getLsbD_extractLsb']
  simp [h1, h3, h]

@[simp] theorem lowByte_wordOfBytes (hi lo : Byte) : lowByte (wordOfBytes hi lo) = lo := by
  apply field_ext; intro i h
  simp only [wordOfBytes, lowByte, BitVec.getLsbD_append, BitVec.getLsbD_extractLsb']
  simp [h]

end Sys2Proof
end

