-- ==== Sys2Proof/Laws/Display.lean ====
section
/-! SUPPORT. What drawing does: one pixel, one row, one sprite each invert a set of cells and collect the collision (R120, R122). -/

namespace Sys2Proof.Machine

/-- Drawing from `p` to `q` inverts exactly the cells of `S`, and the collision is set when one of them was on. -/
def Flips (S : BitVec 6 → BitVec 5 → Prop) (p q : FrameBuffer × Bool) : Prop :=
  (∀ px py, (S px py → FrameBuffer.get q.1 px py = !FrameBuffer.get p.1 px py) ∧
    (¬ S px py → FrameBuffer.get q.1 px py = FrameBuffer.get p.1 px py)) ∧
  (q.2 = true ↔ p.2 = true ∨ ∃ px py, S px py ∧ FrameBuffer.get p.1 px py = true)

theorem Flips.refl (p : FrameBuffer × Bool) : Flips (fun _ _ => False) p p := by simp [Flips]

/-- Two drawings one after the other, on cells that are not the same, invert the cells of both. -/
theorem Flips.trans {S T : BitVec 6 → BitVec 5 → Prop} {p q r : FrameBuffer × Bool} (h : Flips S p q) (k : Flips T q r)
    (hd : ∀ px py, S px py → ¬ T px py) : Flips (fun px py => S px py ∨ T px py) p r := by
  refine ⟨fun px py => ?_, ?_⟩
  · have h1 := h.1 px py
    have k1 := k.1 px py
    have d := hd px py
    by_cases hs : S px py
    · exact ⟨fun _ => by rw [k1.2 (d hs), h1.1 hs], fun hn => absurd (.inl hs) hn⟩
    · by_cases ht : T px py
      · exact ⟨fun _ => by rw [k1.1 ht, h1.2 hs], fun hn => absurd (.inr ht) hn⟩
      · exact ⟨fun hn => absurd hn (by simp [hs, ht]), fun _ => by rw [k1.2 ht, h1.2 hs]⟩
  · rw [k.2, h.2]
    constructor
    · rintro ((hp | ⟨px, py, hs, hg⟩) | ⟨px, py, ht, hg⟩)
      · exact .inl hp
      · exact .inr ⟨px, py, .inl hs, hg⟩
      · have hs : ¬ S px py := fun hs => hd px py hs ht
        exact .inr ⟨px, py, .inr ht, by rw [← (h.1 px py).2 hs]; exact hg⟩
    · rintro (hp | ⟨px, py, hs | ht, hg⟩)
      · exact .inl (.inl hp)
      · exact .inl (.inr ⟨px, py, hs, hg⟩)
      · have hs : ¬ S px py := fun hs => hd px py hs ht
        exact .inr ⟨px, py, ht, by rw [(h.1 px py).2 hs]; exact hg⟩

theorem Flips.congr {S T : BitVec 6 → BitVec 5 → Prop} {p q : FrameBuffer × Bool} (h : Flips S p q)
    (e : ∀ px py, S px py ↔ T px py) : Flips T p q := by
  have : S = T := funext fun px => funext fun py => propext (e px py)
  exact this ▸ h

/-- One pixel inverts its cell when its bit is 1 (R122). -/
theorem drawPixel_flips (ox oy : Byte) (r c : Nat) (bit : Bool) (p : FrameBuffer × Bool) :
    Flips (fun px py => bit = true ∧ px = columnOf ox c ∧ py = rowOf oy r) p (drawPixel ox oy r c bit p) := by
  cases bit with
  | false => simpa [drawPixel] using Flips.refl p
  | true =>
    refine ⟨fun px py => ⟨fun ⟨_, hx, hy⟩ => ?_, fun hn => ?_⟩, ?_⟩
    · simp [drawPixel, hx, hy]
    · have : ¬ (px = columnOf ox c ∧ py = rowOf oy r) := fun h => hn ⟨rfl, h⟩
      simp [drawPixel, this]
    · simp [drawPixel]

theorem columnOf_toNat (ox : Byte) (c : Nat) : (columnOf ox c).toNat = (ox.toNat + c) % 64 := by
  simp [columnOf, BitVec.toNat_ofNat]

theorem rowOf_toNat (oy : Byte) (r : Nat) : (rowOf oy r).toNat = (oy.toNat + r) % 32 := by
  simp [rowOf, BitVec.toNat_ofNat]

/-- Columns of one row fall on different cells (R122). -/
theorem columnOf_inj {ox : Byte} {c d : Nat} (hc : c < 64) (hd : d < 64) (h : columnOf ox c = columnOf ox d) : c = d := by
  have h := congrArg BitVec.toNat h
  rw [columnOf_toNat, columnOf_toNat] at h
  omega

/-- Rows of one sprite fall on different rows (R122). -/
theorem rowOf_inj {oy : Byte} {r q : Nat} (hr : r < 32) (hq : q < 32) (h : rowOf oy r = rowOf oy q) : r = q := by
  have h := congrArg BitVec.toNat h
  rw [rowOf_toNat, rowOf_toNat] at h
  omega

theorem drawColumns_flips (ox oy : Byte) (r : Nat) (b : Byte) (p : FrameBuffer × Bool) {m : Nat} (hm : m ≤ 8) :
    Flips (fun px py => ∃ c, c < m ∧ b.getLsbD (7 - c) = true ∧ px = columnOf ox c ∧ py = rowOf oy r) p
      ((List.range m).foldl (fun q c => drawPixel ox oy r c (b.getLsbD (7 - c)) q) p) := by
  induction m with
  | zero => simpa using Flips.refl p
  | succ m ih =>
    rw [List.range_succ, List.foldl_append]
    refine ((ih (by omega)).trans (drawPixel_flips ox oy r m _ _) ?_).congr ?_
    · rintro px py ⟨c, hc, _, hx, _⟩ ⟨_, hx', _⟩
      have := columnOf_inj (by omega) (by omega) (hx.symm.trans hx')
      omega
    · intro px py
      constructor
      · rintro (⟨c, hc, h⟩ | h)
        · exact ⟨c, by omega, h⟩
        · exact ⟨m, by omega, h⟩
      · rintro ⟨c, hc, h⟩
        by_cases hcm : c = m
        · subst hcm; exact .inr h
        · exact .inl ⟨c, by omega, h⟩

/-- One row inverts the cells of its set bits (R122). -/
theorem drawRow_flips (ox oy : Byte) (r : Nat) (b : Byte) (p : FrameBuffer × Bool) :
    Flips (fun px py => ∃ c, c < 8 ∧ b.getLsbD (7 - c) = true ∧ px = columnOf ox c ∧ py = rowOf oy r) p
      (drawRow ox oy r b p) :=
  drawColumns_flips ox oy r b p (Nat.le_refl 8)

/-- A sprite of at most 32 rows inverts the cells of its set bits, and the collision is set exactly when one of them was on
(R122). -/
theorem drawSprite_flips (s : State) (ox oy : Byte) {n : Nat} (hn : n ≤ 32) :
    Flips (fun px py => ∃ r c, r < n ∧ c < 8 ∧ (s.memRead (s.effective r)).getLsbD (7 - c) = true ∧
      px = columnOf ox c ∧ py = rowOf oy r) (s.fb, false) (drawSprite s ox oy n) := by
  unfold drawSprite
  induction n with
  | zero => simpa using Flips.refl (s.fb, false)
  | succ n ih =>
    rw [List.range_succ, List.foldl_append]
    refine ((ih (by omega)).trans (drawRow_flips ox oy n _ _) ?_).congr ?_
    · rintro px py ⟨r, c, hr, _, _, _, hy⟩ ⟨d, _, _, _, hy'⟩
      have := rowOf_inj (by omega) (by omega) (hy.symm.trans hy')
      omega
    · intro px py
      constructor
      · rintro (⟨r, c, hr, h⟩ | ⟨c, h⟩)
        · exact ⟨r, c, by omega, h⟩
        · exact ⟨n, c, by omega, h⟩
      · rintro ⟨r, c, hr, h⟩
        by_cases hrn : r = n
        · subst hrn; exact .inr ⟨c, h⟩
        · exact .inl ⟨r, c, by omega, h⟩

end Sys2Proof.Machine
end

