-- ==== Sys2Proof/Laws/PerInstr.lean ====
section
/-! SUPPORT. Per instruction: the word an instruction encodes to is covered by the row of R55 that its pattern names, and by no other. -/

namespace Sys2Proof.Laws.EncodeRow

/-- The word of a well-formed instruction is covered by exactly the row its pattern names (R55); an ignored encoding's word
by none (R56). -/
def Statement (i : Instr) : Prop :=
  i.wellFormed = true → ∀ r ∈ opcodeRows, (r.covers (encode i) = true ↔ i.pattern = some r.pattern)

theorem cls : Statement .cls := by unfold Statement; decide
theorem ret : Statement .ret := by unfold Statement; decide

theorem jp (nnn : Addr) : Statement (.jp nnn) := by
  intro _; rw [opcodeRows_fields]
  simp only [List.forall_mem_cons, covers_FFFF, covers_F000, covers_F00F, covers_F0FF, encode, Instr.pattern]
  simp

theorem call (nnn : Addr) : Statement (.call nnn) := by
  intro _; rw [opcodeRows_fields]
  simp only [List.forall_mem_cons, covers_FFFF, covers_F000, covers_F00F, covers_F0FF, encode, Instr.pattern]
  simp

theorem seImm (x : Nibble) (nn : Byte) : Statement (.seImm x nn) := by
  intro _; rw [opcodeRows_fields]
  simp only [List.forall_mem_cons, covers_FFFF, covers_F000, covers_F00F, covers_F0FF, encode, Instr.pattern]
  simp

theorem sneImm (x : Nibble) (nn : Byte) : Statement (.sneImm x nn) := by
  intro _; rw [opcodeRows_fields]
  simp only [List.forall_mem_cons, covers_FFFF, covers_F000, covers_F00F, covers_F0FF, encode, Instr.pattern]
  simp

theorem seReg (x : Nibble) (y : Nibble) : Statement (.seReg x y) := by
  intro _; rw [opcodeRows_fields]
  simp only [List.forall_mem_cons, covers_FFFF, covers_F000, covers_F00F, covers_F0FF, encode, Instr.pattern]
  simp

theorem ldImm (x : Nibble) (nn : Byte) : Statement (.ldImm x nn) := by
  intro _; rw [opcodeRows_fields]
  simp only [List.forall_mem_cons, covers_FFFF, covers_F000, covers_F00F, covers_F0FF, encode, Instr.pattern]
  simp

theorem addImm (x : Nibble) (nn : Byte) : Statement (.addImm x nn) := by
  intro _; rw [opcodeRows_fields]
  simp only [List.forall_mem_cons, covers_FFFF, covers_F000, covers_F00F, covers_F0FF, encode, Instr.pattern]
  simp

theorem ldReg (x : Nibble) (y : Nibble) : Statement (.ldReg x y) := by
  intro _; rw [opcodeRows_fields]
  simp only [List.forall_mem_cons, covers_FFFF, covers_F000, covers_F00F, covers_F0FF, encode, Instr.pattern]
  simp

theorem orReg (x : Nibble) (y : Nibble) : Statement (.orReg x y) := by
  intro _; rw [opcodeRows_fields]
  simp only [List.forall_mem_cons, covers_FFFF, covers_F000, covers_F00F, covers_F0FF, encode, Instr.pattern]
  simp

theorem andReg (x : Nibble) (y : Nibble) : Statement (.andReg x y) := by
  intro _; rw [opcodeRows_fields]
  simp only [List.forall_mem_cons, covers_FFFF, covers_F000, covers_F00F, covers_F0FF, encode, Instr.pattern]
  simp

theorem xorReg (x : Nibble) (y : Nibble) : Statement (.xorReg x y) := by
  intro _; rw [opcodeRows_fields]
  simp only [List.forall_mem_cons, covers_FFFF, covers_F000, covers_F00F, covers_F0FF, encode, Instr.pattern]
  simp

theorem addReg (x : Nibble) (y : Nibble) : Statement (.addReg x y) := by
  intro _; rw [opcodeRows_fields]
  simp only [List.forall_mem_cons, covers_FFFF, covers_F000, covers_F00F, covers_F0FF, encode, Instr.pattern]
  simp

theorem subReg (x : Nibble) (y : Nibble) : Statement (.subReg x y) := by
  intro _; rw [opcodeRows_fields]
  simp only [List.forall_mem_cons, covers_FFFF, covers_F000, covers_F00F, covers_F0FF, encode, Instr.pattern]
  simp

theorem shr (x : Nibble) (y : Nibble) : Statement (.shr x y) := by
  intro _; rw [opcodeRows_fields]
  simp only [List.forall_mem_cons, covers_FFFF, covers_F000, covers_F00F, covers_F0FF, encode, Instr.pattern]
  simp

theorem subnReg (x : Nibble) (y : Nibble) : Statement (.subnReg x y) := by
  intro _; rw [opcodeRows_fields]
  simp only [List.forall_mem_cons, covers_FFFF, covers_F000, covers_F00F, covers_F0FF, encode, Instr.pattern]
  simp

theorem shl (x : Nibble) (y : Nibble) : Statement (.shl x y) := by
  intro _; rw [opcodeRows_fields]
  simp only [List.forall_mem_cons, covers_FFFF, covers_F000, covers_F00F, covers_F0FF, encode, Instr.pattern]
  simp

theorem sneReg (x : Nibble) (y : Nibble) : Statement (.sneReg x y) := by
  intro _; rw [opcodeRows_fields]
  simp only [List.forall_mem_cons, covers_FFFF, covers_F000, covers_F00F, covers_F0FF, encode, Instr.pattern]
  simp

theorem ldI (nnn : Addr) : Statement (.ldI nnn) := by
  intro _; rw [opcodeRows_fields]
  simp only [List.forall_mem_cons, covers_FFFF, covers_F000, covers_F00F, covers_F0FF, encode, Instr.pattern]
  simp

theorem jpV0 (nnn : Addr) : Statement (.jpV0 nnn) := by
  intro _; rw [opcodeRows_fields]
  simp only [List.forall_mem_cons, covers_FFFF, covers_F000, covers_F00F, covers_F0FF, encode, Instr.pattern]
  simp

theorem rnd (x : Nibble) (nn : Byte) : Statement (.rnd x nn) := by
  intro _; rw [opcodeRows_fields]
  simp only [List.forall_mem_cons, covers_FFFF, covers_F000, covers_F00F, covers_F0FF, encode, Instr.pattern]
  simp

theorem drw (x : Nibble) (y : Nibble) (n : Nibble) : Statement (.drw x y n) := by
  intro _; rw [opcodeRows_fields]
  simp only [List.forall_mem_cons, covers_FFFF, covers_F000, covers_F00F, covers_F0FF, encode, Instr.pattern]
  simp

theorem skp (x : Nibble) : Statement (.skp x) := by
  intro _; rw [opcodeRows_fields]
  simp only [List.forall_mem_cons, covers_FFFF, covers_F000, covers_F00F, covers_F0FF, encode, Instr.pattern]
  simp

theorem sknp (x : Nibble) : Statement (.sknp x) := by
  intro _; rw [opcodeRows_fields]
  simp only [List.forall_mem_cons, covers_FFFF, covers_F000, covers_F00F, covers_F0FF, encode, Instr.pattern]
  simp

theorem ldVxDT (x : Nibble) : Statement (.ldVxDT x) := by
  intro _; rw [opcodeRows_fields]
  simp only [List.forall_mem_cons, covers_FFFF, covers_F000, covers_F00F, covers_F0FF, encode, Instr.pattern]
  simp

theorem ldVxK (x : Nibble) : Statement (.ldVxK x) := by
  intro _; rw [opcodeRows_fields]
  simp only [List.forall_mem_cons, covers_FFFF, covers_F000, covers_F00F, covers_F0FF, encode, Instr.pattern]
  simp

theorem ldDTVx (x : Nibble) : Statement (.ldDTVx x) := by
  intro _; rw [opcodeRows_fields]
  simp only [List.forall_mem_cons, covers_FFFF, covers_F000, covers_F00F, covers_F0FF, encode, Instr.pattern]
  simp

theorem ldSTVx (x : Nibble) : Statement (.ldSTVx x) := by
  intro _; rw [opcodeRows_fields]
  simp only [List.forall_mem_cons, covers_FFFF, covers_F000, covers_F00F, covers_F0FF, encode, Instr.pattern]
  simp

theorem addI (x : Nibble) : Statement (.addI x) := by
  intro _; rw [opcodeRows_fields]
  simp only [List.forall_mem_cons, covers_FFFF, covers_F000, covers_F00F, covers_F0FF, encode, Instr.pattern]
  simp

theorem ldF (x : Nibble) : Statement (.ldF x) := by
  intro _; rw [opcodeRows_fields]
  simp only [List.forall_mem_cons, covers_FFFF, covers_F000, covers_F00F, covers_F0FF, encode, Instr.pattern]
  simp

theorem ldB (x : Nibble) : Statement (.ldB x) := by
  intro _; rw [opcodeRows_fields]
  simp only [List.forall_mem_cons, covers_FFFF, covers_F000, covers_F00F, covers_F0FF, encode, Instr.pattern]
  simp

theorem storeRegs (x : Nibble) : Statement (.storeRegs x) := by
  intro _; rw [opcodeRows_fields]
  simp only [List.forall_mem_cons, covers_FFFF, covers_F000, covers_F00F, covers_F0FF, encode, Instr.pattern]
  simp

theorem loadRegs (x : Nibble) : Statement (.loadRegs x) := by
  intro _; rw [opcodeRows_fields]
  simp only [List.forall_mem_cons, covers_FFFF, covers_F000, covers_F00F, covers_F0FF, encode, Instr.pattern]
  simp

theorem ignored (w : Word) : Statement (.ignored w) := by
  intro h; rw [opcodeRows_fields]
  replace h := (ignoredWord_fields w).mp h
  simp only [List.forall_mem_cons, covers_FFFF, covers_F000, covers_F00F, covers_F0FF, encode, Instr.pattern]
  rcases h with ⟨h, k⟩ | ⟨h | h, k⟩ | ⟨h, k⟩ | ⟨h, k⟩ | ⟨h, k⟩ <;> simp_all
  rcases k with k | k | k | k | k | k | k <;> simp [k]

end Sys2Proof.Laws.EncodeRow
end

