-- ==== Sys2Proof/Laws/Reset.lean ====
section
/-! SUPPORT. What the reset of a chip leaves whose glyph table is a given one (R24, R33): the parameter `GLYPH_TABLE` of R3. -/

namespace Sys2Proof.Machine

/-! ## Memory seeded with bytes -/

/-- A seeded memory reads as the bytes at their addresses and as its unlisted contents elsewhere. -/
theorem Memory.read_seed (bytes : List Byte) (k a : Nat) :
    Memory.read (Memory.seed k bytes) a = if h : k ≤ a ∧ a - k < bytes.length then bytes[a - k] else unlisted a := by
  induction bytes generalizing k with
  | nil => simp [Memory.seed, Memory.read]
  | cons b bytes ih =>
    have step : Memory.read (Memory.seed k (b :: bytes)) a =
        if k = a then b else Memory.read (Memory.seed (k + 1) bytes) a := by
      rw [Memory.seed]
      split
      · by_cases hk : k = a
        · subst hk; rw [if_pos rfl, ih, dif_neg (by omega)]; exact Eq.symm ‹_›
        · rw [if_neg hk]
      · rfl
    rw [step]
    by_cases hk : k = a
    · subst hk; simp
    · rw [if_neg hk, ih]
      by_cases h : k + 1 ≤ a ∧ a - (k + 1) < bytes.length
      · have e : a - k = (a - (k + 1)) + 1 := by omega
        rw [dif_pos h, dif_pos ⟨by omega, by simp only [List.length_cons]; omega⟩]
        simp only [e, List.getElem_cons_succ]
      · rw [dif_neg h, dif_neg (by simp only [List.length_cons]; omega)]

/-- The addresses a seeded memory lists are those of the bytes. -/
theorem Memory.seed_bounds {bytes : List Byte} {k : Nat} {c : Host.Cell} (h : c ∈ Memory.seed k bytes) :
    k ≤ c.1 ∧ c.1 < k + bytes.length ∧ c.2 ≠ unlisted c.1 := by
  induction bytes generalizing k with
  | nil => simp [Memory.seed] at h
  | cons b bytes ih =>
    rw [List.length_cons]
    unfold Memory.seed at h
    split at h
    · have := ih h; exact ⟨by omega, by omega, this.2.2⟩
    · rcases List.mem_cons.mp h with h | h
      · subst h; exact ⟨Nat.le_refl k, by show k < _; omega, ‹_›⟩
      · have := ih h; exact ⟨by omega, by omega, this.2.2⟩

/-- A seeded memory is in canonical form when its bytes fit the address space. -/
theorem Memory.wf_seed (bytes : List Byte) {k : Nat} (hk : k + bytes.length ≤ Config.memSize) :
    Memory.wf (Memory.seed k bytes) := by
  refine ⟨?_, fun c hc => ⟨by have := Memory.seed_bounds hc; omega, (Memory.seed_bounds hc).2.2⟩⟩
  clear hk
  induction bytes generalizing k with
  | nil => simp [Memory.seed]
  | cons b bytes ih =>
    unfold Memory.seed
    split
    · exact ih
    · exact List.pairwise_cons.mpr ⟨fun c hc => by have := (Memory.seed_bounds hc).1; show k < c.1; omega, ih⟩

/-! ## The reset with a table -/

variable (table : Config.GlyphTable)

/-- Memory right after reset: the table below 80, zero above it (R24, R33). -/
theorem State.resetWith_memRead (a : Nat) :
    (State.resetWith table).memRead a = if a % 4096 < 80 then tableByte table (a % 4096) else 0 := by
  rw [State.memRead, State.resetWith, Memory.read_seed]
  simp only [Config.memSize, Nat.zero_le, Nat.sub_zero, true_and, Vector.length_toList, Vector.getElem_toList, tableByte]
  by_cases h : a % 4096 < 80
  · rw [dif_pos h, if_pos h, dif_pos h]
  · rw [dif_neg h, if_neg h, unlisted, if_neg h]

/-- Memory right after reset is in canonical form, whatever the table. -/
theorem State.resetWith_wf : Memory.wf (State.resetWith table).memory :=
  Memory.wf_seed table.toList (by rw [Vector.length_toList]; decide)

/-- With the default table the reset is `State.reset`: no byte differs from what an unlisted address reads as. -/
theorem State.resetWith_default : State.resetWith glyphTable = State.reset := by decide

@[simp] theorem State.resetWith_V : (State.resetWith table).V = State.reset.V := rfl
@[simp] theorem State.resetWith_I : (State.resetWith table).I = State.reset.I := rfl
@[simp] theorem State.resetWith_PC : (State.resetWith table).PC = State.reset.PC := rfl
@[simp] theorem State.resetWith_stack : (State.resetWith table).stack = State.reset.stack := rfl
@[simp] theorem State.resetWith_SP : (State.resetWith table).SP = State.reset.SP := rfl
@[simp] theorem State.resetWith_DT : (State.resetWith table).DT = State.reset.DT := rfl
@[simp] theorem State.resetWith_ST : (State.resetWith table).ST = State.reset.ST := rfl
@[simp] theorem State.resetWith_fb : (State.resetWith table).fb = State.reset.fb := rfl
@[simp] theorem State.resetWith_keys : (State.resetWith table).keys = State.reset.keys := rfl
@[simp] theorem State.resetWith_rnd : (State.resetWith table).rnd = State.reset.rnd := rfl
@[simp] theorem State.resetWith_draws : (State.resetWith table).draws = State.reset.draws := rfl

end Sys2Proof.Machine
end

