-- ==== Sys2Proof/Tests/Slice0.lean ====
section
/-! SUPPORT. The model's own tests: ill-formed terms refused, words written out from the spec's encodings decoded, one step per
instruction from the vectors of spec/95_test_vectors.md (named S<n> and T<n> there), and a witness for the hypotheses of every
obligation that has any. -/

namespace Sys2Proof.Tests

open Sys2Proof.Machine Sys2Proof.Safety

/-! ## Helpers -/

/-- The state with some registers set. -/
def withRegs (l : List (Nibble × Byte)) (s : State) : State := l.foldl (fun t p => t.writeReg p.1 p.2) s

/-- The state with some bytes of memory set. -/
def withBytes (l : List (Nat × Byte)) (s : State) : State := l.foldl (fun t p => t.memWrite p.1 p.2) s

/-- The state with some cells of the framebuffer on. -/
def withCells (l : List (BitVec 6 × BitVec 5)) (s : State) : State :=
  l.foldl (fun t p => t.withFb (FrameBuffer.put t.fb p.1 p.2 true)) s

/-- The state with `SP` and one stack slot set. -/
def withStack (sp : Fin 17) (k : Nibble) (a : Addr) (s : State) : State :=
  { s with SP := sp, stack := s.stack.set k.toNat a k.isLt }

/-- One step of the instruction word `w` from `s`. -/
def run (w : Nat) (s : State) : Host.Outcome State Fault Refusal := step (s.withFetchWord 16 w)

/-- A glyph table other than the default: byte `k` is `k + 1`. -/
def otherTable : Config.GlyphTable := Vector.ofFn fun k => BitVec.ofNat 8 (k.val + 1)

/-- The outcome is a next state with the property `p`. -/
def nextIs (o : Host.Outcome State Fault Refusal) (p : State → Bool) : Bool :=
  match o with
  | .next t => p t
  | .fault _ => false
  | .refused _ => false

/-! ## Well-formedness: an ill-formed term for each check -/

/-- Refused: family 0: 00E0 is CLS. -/
theorem test_wf_refuses_zero_cls : (Instr.ignored 0x00E0).wellFormed = false := by decide
/-- Refused: family 0: 00EE is RET. -/
theorem test_wf_refuses_zero_ret : (Instr.ignored 0x00EE).wellFormed = false := by decide
/-- Refused: family 5 with n = 0. -/
theorem test_wf_refuses_compare_five : (Instr.ignored 0x5120).wellFormed = false := by decide
/-- Refused: family 9 with n = 0. -/
theorem test_wf_refuses_compare_nine : (Instr.ignored 0x9120).wellFormed = false := by decide
/-- Refused: family 8 with a listed n. -/
theorem test_wf_refuses_alu : (Instr.ignored 0x8127).wellFormed = false := by decide
/-- Refused: family 8 with n = E. -/
theorem test_wf_refuses_alu_shl : (Instr.ignored 0x812E).wellFormed = false := by decide
/-- Refused: family E with 9E. -/
theorem test_wf_refuses_key : (Instr.ignored 0xE39E).wellFormed = false := by decide
/-- Refused: family E with A1. -/
theorem test_wf_refuses_key_not : (Instr.ignored 0xE3A1).wellFormed = false := by decide
/-- Refused: family F with a listed nn. -/
theorem test_wf_refuses_misc : (Instr.ignored 0xF30A).wellFormed = false := by decide
/-- Refused: a family without ignored encodings. -/
theorem test_wf_refuses_other : (Instr.ignored 0x1234).wellFormed = false := by decide
/-- Accepted: an ignored word of each of the five checks (R56), two families in one of them. -/
theorem test_wf_accepts_ignored : [0x0000, 0x01E0, 0x5AB1, 0x9121, 0x8AB8, 0x8ABF, 0xE09F, 0xF075].all
    (fun w => (Instr.ignored w).wellFormed) = true := by decide

/-! ## Decoding: words written out bit by bit from R52 and R55 -/

theorem test_decode_cls : decode 0b0000_0000_1110_0000#16 = .cls := by decide
theorem test_decode_ret : decode 0b0000_0000_1110_1110#16 = .ret := by decide
theorem test_decode_jp : decode 0b0001_0010_0000_0100#16 = .jp 0x204 := by decide
theorem test_decode_call : decode 0b0010_0010_0000_1010#16 = .call 0x20A := by decide
theorem test_decode_seImm : decode 0b0011_0011_0010_1010#16 = .seImm 3 0x2A := by decide
theorem test_decode_sneImm : decode 0b0100_0011_0010_1010#16 = .sneImm 3 0x2A := by decide
theorem test_decode_seReg : decode 0b0101_0001_0010_0000#16 = .seReg 1 2 := by decide
theorem test_decode_ldImm : decode 0b0110_1010_0000_0010#16 = .ldImm 0xA 0x02 := by decide
theorem test_decode_addImm : decode 0b0111_0000_1111_1111#16 = .addImm 0 0xFF := by decide
theorem test_decode_ldReg : decode 0b1000_0001_0010_0000#16 = .ldReg 1 2 := by decide
theorem test_decode_orReg : decode 0b1000_0001_0010_0001#16 = .orReg 1 2 := by decide
theorem test_decode_andReg : decode 0b1000_0001_0010_0010#16 = .andReg 1 2 := by decide
theorem test_decode_xorReg : decode 0b1000_0001_0010_0011#16 = .xorReg 1 2 := by decide
theorem test_decode_addReg : decode 0b1000_0001_0010_0100#16 = .addReg 1 2 := by decide
theorem test_decode_subReg : decode 0b1000_0001_0010_0101#16 = .subReg 1 2 := by decide
theorem test_decode_shr : decode 0b1000_0001_0010_0110#16 = .shr 1 2 := by decide
theorem test_decode_subnReg : decode 0b1000_0001_0010_0111#16 = .subnReg 1 2 := by decide
theorem test_decode_shl : decode 0b1000_0001_0010_1110#16 = .shl 1 2 := by decide
theorem test_decode_sneReg : decode 0b1001_0001_0010_0000#16 = .sneReg 1 2 := by decide
theorem test_decode_ldI : decode 0b1010_1111_0000_1101#16 = .ldI 0xF0D := by decide
theorem test_decode_jpV0 : decode 0b1011_0011_0000_0001#16 = .jpV0 0x301 := by decide
theorem test_decode_rnd : decode 0b1100_0011_0000_1111#16 = .rnd 3 0x0F := by decide
theorem test_decode_drw : decode 0b1101_0001_0010_0101#16 = .drw 1 2 5 := by decide
theorem test_decode_skp : decode 0b1110_0111_1001_1110#16 = .skp 7 := by decide
theorem test_decode_sknp : decode 0b1110_0111_1010_0001#16 = .sknp 7 := by decide
theorem test_decode_ldVxDT : decode 0b1111_0001_0000_0111#16 = .ldVxDT 1 := by decide
theorem test_decode_ldVxK : decode 0b1111_0011_0000_1010#16 = .ldVxK 3 := by decide
theorem test_decode_ldDTVx : decode 0b1111_0100_0001_0101#16 = .ldDTVx 4 := by decide
theorem test_decode_ldSTVx : decode 0b1111_0101_0001_1000#16 = .ldSTVx 5 := by decide
theorem test_decode_addI : decode 0b1111_0010_0001_1110#16 = .addI 2 := by decide
theorem test_decode_ldF : decode 0b1111_1110_0010_1001#16 = .ldF 0xE := by decide
theorem test_decode_ldB : decode 0b1111_0011_0011_0011#16 = .ldB 3 := by decide
theorem test_decode_storeRegs : decode 0b1111_1111_0101_0101#16 = .storeRegs 0xF := by decide
theorem test_decode_loadRegs : decode 0b1111_0010_0110_0101#16 = .loadRegs 2 := by decide
theorem test_decode_ignored : decode 0b0101_1010_1011_0001#16 = .ignored 0x5AB1 := by decide

/-- The bytes of an instruction, high byte first, are read as one instruction and the rest is left (R34, R50). -/
theorem test_decodeBytes_rest : decodeBytes [0x6A, 0x02, 0x12, 0x00] = .ok (.ldImm 0xA 0x02, [0x12, 0x00]) := by decide
/-- One byte is no instruction. -/
theorem test_decodeBytes_truncated : decodeBytes [0x6A] = .error .truncated := by decide
/-- The encoder writes the high byte first (R34). -/
theorem test_encodeBytes : encodeBytes (.call 0x20A) = [0x22, 0x0A] := by decide
/-- No word is covered by two rows of R55: the rows' masks and values clash pairwise. -/
theorem test_rows_disjoint : opcodeRows.Pairwise (fun r q => r.value &&& q.mask ≠ q.value &&& r.mask) := by decide
/-- The table's numbering: bit 0 is the least significant bit of the one word. -/
theorem test_decodeTableWord : decodeTableWord 16 0xD125 = some (.drw 1 2 5) := by decide
/-- The word stored for the fetch is the word fetched, also across the end of memory. -/
theorem test_withFetchWord : fetch (State.reset.withFetchWord 16 0xD125) = 0xD125 ∧
    fetch (({ State.reset with PC := 0xFFF }).withFetchWord 16 0x6A02) = 0x6A02 := by decide

/-! ## One step per instruction (spec/95_test_vectors.md) -/

/-- T9: a fetch across the end of memory. -/
theorem test_fetch_wraps : nextIs (run 0x6A02 { State.reset with PC := 0xFFF })
    (fun t => t.reg 0xA == 0x02 && t.PC == 0x001) = true := by decide
/-- T11: an odd PC. -/
theorem test_fetch_odd : nextIs (run 0x6107 { State.reset with PC := 0x201 })
    (fun t => t.reg 1 == 0x07 && t.PC == 0x203) = true := by decide
/-- T2. -/
theorem test_ignored : nextIs (run 0x5AB1 .reset)
    (fun t => t == (State.reset.withFetchWord 16 0x5AB1).jump 0x202) = true := by decide
/-- T8: 01EE is not RET (D14). -/
theorem test_ignored_01EE : nextIs (run 0x01EE (withStack 1 0 0x204 .reset))
    (fun t => t.SP == 1 && t.PC == 0x202) = true := by decide
/-- T118. -/
theorem test_cls : nextIs (run 0x00E0 (withCells [(0, 0), (63, 31)] (withRegs [(15, 1)] .reset)))
    (fun t => !t.pixel 0 0 && !t.pixel 63 31 && t.reg 15 == 1) = true := by decide
/-- T24. -/
theorem test_ret : nextIs (run 0x00EE (withStack 1 0 0x204 { State.reset with PC := 0x20C }))
    (fun t => t.SP == 0 && t.PC == 0x206 && t.slot 0 == 0x204) = true := by decide
/-- T25: an empty stack (D3). -/
theorem test_ret_empty : nextIs (run 0x00EE .reset)
    (fun t => t.SP == 0 && t.PC == 0x002) = true := by decide
/-- T20. -/
theorem test_jp : nextIs (run 0x1204 { State.reset with PC := 0x20A })
    (fun t => t.PC == 0x204) = true := by decide
/-- T21. -/
theorem test_jp_self : nextIs (run 0x120C { State.reset with PC := 0x20C })
    (fun t => t == ({ State.reset with PC := 0x20C }).withFetchWord 16 0x120C) = true := by decide
/-- T22. -/
theorem test_call : nextIs (run 0x220A { State.reset with PC := 0x204 })
    (fun t => t.slot 0 == 0x204 && t.SP == 1 && t.PC == 0x20A) = true := by decide
/-- T23: a full stack (D26). -/
theorem test_call_full : nextIs (run 0x2600 (withStack 16 15 0x400 { State.reset with PC := 0x500 }))
    (fun t => t.SP == 16 && t.slot 15 == 0x400 && t.PC == 0x600) = true := by decide
/-- T28. -/
theorem test_seImm_taken : nextIs (run 0x332A (withRegs [(3, 0x2A)] .reset))
    (fun t => t.PC == 0x204) = true := by decide
/-- T30. -/
theorem test_seImm_wraps : nextIs (run 0x3000 { State.reset with PC := 0xFFE })
    (fun t => t.PC == 0x002) = true := by decide
/-- T31. -/
theorem test_sneImm : nextIs (run 0x432A (withRegs [(3, 0x2A)] .reset))
    (fun t => t.PC == 0x202) = true := by decide
/-- T32. -/
theorem test_sneImm_taken : nextIs (run 0x432A .reset)
    (fun t => t.PC == 0x204) = true := by decide
/-- T34. -/
theorem test_seReg : nextIs (run 0x5120 (withRegs [(1, 7), (2, 8)] .reset))
    (fun t => t.PC == 0x202) = true := by decide
/-- T33. -/
theorem test_seReg_taken : nextIs (run 0x5120 (withRegs [(1, 7), (2, 7)] .reset))
    (fun t => t.PC == 0x204) = true := by decide
/-- T36. -/
theorem test_sneReg_taken : nextIs (run 0x9120 (withRegs [(1, 7), (2, 8)] .reset))
    (fun t => t.PC == 0x204) = true := by decide
/-- T37. -/
theorem test_sneReg : nextIs (run 0x9120 (withRegs [(1, 7), (2, 7)] .reset))
    (fun t => t.PC == 0x202) = true := by decide
/-- T39. -/
theorem test_jpV0_wraps : nextIs (run 0xBFFF (withRegs [(0, 0xFF)] .reset))
    (fun t => t.PC == 0x0FE) = true := by decide
/-- T40. -/
theorem test_jpV0_not_Vx : nextIs (run 0xB234 (withRegs [(2, 0x55)] .reset))
    (fun t => t.PC == 0x234) = true := by decide
/-- S3. -/
theorem test_ldImm : nextIs (run 0x6A02 .reset)
    (fun t => t.reg 0xA == 0x02 && t.PC == 0x202) = true := by decide
/-- T50. -/
theorem test_ldImm_VF : nextIs (run 0x6FAB .reset)
    (fun t => t.reg 15 == 0xAB) = true := by decide
/-- T51. -/
theorem test_addImm : nextIs (run 0x70FF (withRegs [(0, 5), (15, 7)] .reset))
    (fun t => t.reg 0 == 0x04 && t.reg 15 == 7) = true := by decide
/-- T52. -/
theorem test_addImm_no_carry : nextIs (run 0x7001 (withRegs [(0, 0xFF)] .reset))
    (fun t => t.reg 0 == 0 && t.reg 15 == 0) = true := by decide
/-- T53. -/
theorem test_ldReg : nextIs (run 0x8010 (withRegs [(1, 0x3C)] .reset))
    (fun t => t.reg 0 == 0x3C && t.reg 1 == 0x3C) = true := by decide
/-- T54. -/
theorem test_orReg : nextIs (run 0x8011 (withRegs [(0, 0xF0), (1, 0x0F), (15, 1)] .reset))
    (fun t => t.reg 0 == 0xFF && t.reg 15 == 1) = true := by decide
/-- T55. -/
theorem test_andReg : nextIs (run 0x8012 (withRegs [(0, 0xF3), (1, 0x3F), (15, 1)] .reset))
    (fun t => t.reg 0 == 0x33 && t.reg 15 == 1) = true := by decide
/-- T56. -/
theorem test_xorReg : nextIs (run 0x8013 (withRegs [(0, 0xFF), (1, 0x0F), (15, 1)] .reset))
    (fun t => t.reg 0 == 0xF0 && t.reg 15 == 1) = true := by decide
/-- T57. -/
theorem test_xorReg_self : nextIs (run 0x8443 (withRegs [(4, 0x5A)] .reset))
    (fun t => t.reg 4 == 0) = true := by decide
/-- S4. -/
theorem test_addReg : nextIs (run 0x8014 (withRegs [(0, 0xFF), (1, 1)] .reset))
    (fun t => t.reg 0 == 0x00 && t.reg 15 == 1) = true := by decide
/-- T62: the flag overwrites the sum (D4). -/
theorem test_addReg_VF : nextIs (run 0x8F14 (withRegs [(15, 0xFF), (1, 1)] .reset))
    (fun t => t.reg 15 == 1) = true := by decide
/-- T65. -/
theorem test_subReg_borrow : nextIs (run 0x8015 (withRegs [(0, 3), (1, 5)] .reset))
    (fun t => t.reg 0 == 0xFE && t.reg 15 == 0) = true := by decide
/-- T66: the strict rule (D6). -/
theorem test_subReg_equal : nextIs (run 0x8015 (withRegs [(0, 7), (1, 7), (15, 1)] .reset))
    (fun t => t.reg 0 == 0 && t.reg 15 == 0) = true := by decide
/-- T70: Vy is not used (D5). -/
theorem test_shr : nextIs (run 0x8236 (withRegs [(2, 4), (3, 0xFF)] .reset))
    (fun t => t.reg 2 == 2 && t.reg 15 == 0 && t.reg 3 == 0xFF) = true := by decide
/-- T72. -/
theorem test_shr_VF : nextIs (run 0x8F06 (withRegs [(15, 3)] .reset))
    (fun t => t.reg 15 == 1) = true := by decide
/-- T73. -/
theorem test_subnReg : nextIs (run 0x8017 (withRegs [(0, 3), (1, 5)] .reset))
    (fun t => t.reg 0 == 2 && t.reg 15 == 1) = true := by decide
/-- T75. -/
theorem test_subnReg_equal : nextIs (run 0x8017 (withRegs [(0, 9), (1, 9), (15, 1)] .reset))
    (fun t => t.reg 0 == 0 && t.reg 15 == 0) = true := by decide
/-- T76. -/
theorem test_shl : nextIs (run 0x823E (withRegs [(2, 0x81)] .reset))
    (fun t => t.reg 2 == 2 && t.reg 15 == 1) = true := by decide
/-- T77. -/
theorem test_shl_no_carry : nextIs (run 0x820E (withRegs [(2, 0x40)] .reset))
    (fun t => t.reg 2 == 0x80 && t.reg 15 == 0) = true := by decide
/-- T80. -/
theorem test_rnd : nextIs (run 0xC30F { State.reset with rnd := some 0xA7 })
    (fun t => t.reg 3 == 0x07 && t.rnd == none && t.draws == 1) = true := by decide
/-- T90. -/
theorem test_ldI : nextIs (run 0xAFFF .reset)
    (fun t => t.I == 0xFFF) = true := by decide
/-- T92. -/
theorem test_addI : nextIs (run 0xF21E (withRegs [(2, 1)] { State.reset with I := 0xFFF }))
    (fun t => t.I == 0x000 && t.reg 15 == 0) = true := by decide
/-- T93. -/
theorem test_addI_wraps : nextIs (run 0xF21E (withRegs [(2, 0xFF)] { State.reset with I := 0xF80 }))
    (fun t => t.I == 0x07F) = true := by decide
/-- T94. -/
theorem test_ldF : nextIs (run 0xF029 (withRegs [(0, 7)] .reset))
    (fun t => t.I == 0x023) = true := by decide
/-- T97 (D23). -/
theorem test_ldF_not_masked : nextIs (run 0xF029 (withRegs [(0, 0xFF)] .reset))
    (fun t => t.I == 0x4FB) = true := by decide
/-- T98. -/
theorem test_ldB : nextIs (run 0xF033 (withRegs [(0, 234)] { State.reset with I := 0x300 }))
    (fun t => t.memRead 0x300 == 2 && t.memRead 0x301 == 3 && t.memRead 0x302 == 4 && t.I == 0x300) = true := by decide
/-- T100. -/
theorem test_ldB_wraps : nextIs (run 0xF333 (withRegs [(3, 255)] { State.reset with I := 0xFFE }))
    (fun t => t.memRead 0xFFE == 2 && t.memRead 0xFFF == 5 && t.memRead 0x000 == 5) = true := by decide
/-- T101. -/
theorem test_storeRegs : nextIs (run 0xF255 (withBytes [(0x403, 0xEE)] (withRegs [(0, 0x11), (1, 0x22), (2, 0x33)] { State.reset with I := 0x400 })))
    (fun t => t.memRead 0x400 == 0x11 && t.memRead 0x402 == 0x33 && t.memRead 0x403 == 0xEE && t.I == 0x400) = true := by decide
/-- T106: an instruction that overwrites itself. -/
theorem test_storeRegs_self : nextIs (run 0xF155 (withRegs [(0, 0x12)] { State.reset with I := 0x200 }))
    (fun t => t.memRead 0x200 == 0x12 && t.memRead 0x201 == 0x00 && t.PC == 0x202) = true := by decide
/-- T104. -/
theorem test_loadRegs : nextIs (run 0xF265 (withBytes [(0x300, 2), (0x301, 3), (0x302, 4)] (withRegs [(3, 0x99)] { State.reset with I := 0x300 })))
    (fun t => t.reg 0 == 2 && t.reg 1 == 3 && t.reg 2 == 4 && t.reg 3 == 0x99 && t.I == 0x300) = true := by decide
/-- R115: addresses wrap one by one. -/
theorem test_loadRegs_wraps : nextIs (run 0xF165 (withBytes [(0xFFF, 0x21), (0x000, 0x43)] { State.reset with I := 0xFFF }))
    (fun t => t.reg 0 == 0x21 && t.reg 1 == 0x43) = true := by decide
/-- T112. -/
theorem test_drw_wraps : nextIs (run 0xD012 (withBytes [(0x300, 0x80), (0x301, 0x80)] (withRegs [(0, 200), (1, 255)] { State.reset with I := 0x300 })))
    (fun t => t.pixel 8 31 && t.pixel 8 0 && !t.pixel 9 31 && !t.pixel 8 1 && t.reg 15 == 0) = true := by decide
/-- T111. -/
theorem test_drw_collision : nextIs (run 0xD011 (withCells [(62, 31), (63, 31)] (withBytes [(0x300, 0xC0)] (withRegs [(0, 62), (1, 31)] { State.reset with I := 0x300 }))))
    (fun t => !t.pixel 62 31 && !t.pixel 63 31 && t.reg 15 == 1) = true := by decide
/-- T120. -/
theorem test_skp_taken : nextIs (run 0xE09E (withRegs [(0, 5)] { State.reset with keys := 0x20 }))
    (fun t => t.PC == 0x204) = true := by decide
/-- T122: 0x15 is not key 5. -/
theorem test_skp_not_masked : nextIs (run 0xE09E (withRegs [(0, 0x15)] { State.reset with keys := 0x20 }))
    (fun t => t.PC == 0x202) = true := by decide
/-- T124. -/
theorem test_sknp : nextIs (run 0xE0A1 (withRegs [(0, 5)] { State.reset with keys := 0x20 }))
    (fun t => t.PC == 0x202) = true := by decide
/-- T125 (D10). -/
theorem test_sknp_out_of_range : nextIs (run 0xE0A1 (withRegs [(0, 0x10)] { State.reset with keys := 0xFFFF }))
    (fun t => t.PC == 0x204) = true := by decide
/-- T129. -/
theorem test_ldVxDT : nextIs (run 0xF107 { State.reset with DT := 0x3C })
    (fun t => t.reg 1 == 0x3C && t.DT == 0x3C) = true := by decide
/-- T126. -/
theorem test_ldVxK_least : nextIs (run 0xF00A { State.reset with keys := 0x88 })
    (fun t => t.reg 0 == 3 && t.PC == 0x202) = true := by decide
/-- T128. -/
theorem test_ldVxK_none : nextIs (run 0xF30A .reset)
    (fun t => t == State.reset.withFetchWord 16 0xF30A) = true := by decide
/-- T130. -/
theorem test_ldDTVx : nextIs (run 0xF015 (withRegs [(0, 60)] .reset))
    (fun t => t.DT == 60 && t.ST == 0) = true := by decide
/-- T131. -/
theorem test_ldSTVx : nextIs (run 0xF018 (withRegs [(0, 2)] .reset))
    (fun t => t.ST == 2 && isSoundActive t) = true := by decide

/-! ## Host operations -/

/-- T133: a tick floors both timers, and the sound ends. -/
theorem test_tick : nextIs (applyHostOp glyphTable .tick { State.reset with DT := 255, ST := 1 })
    (fun t => t.DT == 254 && t.ST == 0 && !isSoundActive t) = true := by decide
/-- S8: at 0 a timer stays. -/
theorem test_tick_floor : nextIs (applyHostOp glyphTable .tick .reset) (fun t => t.DT == 0 && t.ST == 0) = true := by decide
/-- R24 with a table that is not the default: its bytes at 0 and 79 after a reset from a state that holds others. -/
theorem test_reset_with_table : nextIs (applyHostOp otherTable .reset (withBytes [(0, 0xEE), (80, 0xEE)] .reset))
    (fun t => t.memRead 0 == 1 && t.memRead 79 == 80 && t.memRead 80 == 0) = true := by decide
/-- T105 with such a table: the first five bytes loaded. -/
theorem test_loadRegs_table : nextIs (run 0xF465 (State.resetWith otherTable))
    (fun t => t.reg 0 == 1 && t.reg 4 == 5) = true := by decide
/-- T135. -/
theorem test_load_last : nextIs (history glyphTable [.reset, .load 3071 0xAB]) (fun t => t.memRead 0xDFF == 0xAB) = true := by decide
/-- S3 through the host: two bytes loaded, one step. -/
theorem test_load_and_step : nextIs (history glyphTable [.reset, .load 0 0x6A, .load 1 0x02, .step 0 0])
    (fun t => t.reg 0xA == 0x02 && t.PC == 0x202) = true := by decide
/-- T1: right after reset with nothing loaded the word fetched is 0x0000, an ignored encoding. -/
theorem test_first_step : nextIs (step State.reset) (fun t => t == State.reset.jump 0x202) = true := by decide
/-- Writing back what an unlisted address reads as leaves memory as it was, with nothing listed. -/
theorem test_write_back : ((State.reset.memWrite 0x300 0x77).memWrite 0x300 0).memory = [] := by decide
/-- Two orders of the same writes give the same data. -/
theorem test_write_order : (withBytes [(0x300, 1), (0x200, 2)] .reset).memory =
    (withBytes [(0x200, 2), (0x300, 1)] .reset).memory := by decide
/-! ## Witnesses: a concrete state and operands for the hypotheses and clauses of the obligations -/

/-- A state that stores to memory and meets the invariant. -/
theorem test_witness_StepKeepsMemoryCanonical :
    StateInv (State.reset.withFetchWord 16 0xF033) ∧
      ∃ t, step (State.reset.withFetchWord 16 0xF033) = .next t ∧ t.memRead 0 = 0 :=
  ⟨State.memWrite_wf (State.memWrite_wf Memory.wf_nil _ _) _ _, _, rfl, by decide⟩

/-- A state with stored bytes meets the invariant, and so does the reset with a table that is not the default. -/
theorem test_witness_HistoriesCompleteAndKeepTheInvariant_state :
    StateInv (State.reset.memWrite 0x300 0x77) ∧ StateInv (State.resetWith otherTable) :=
  ⟨State.memWrite_wf Memory.wf_nil _ _, State.resetWith_wf _⟩

/-- Every kind of operation, loads at both ends of the contract. -/
theorem test_witness_HistoriesCompleteAndKeepTheInvariant :
    ∀ op ∈ [HostOp.load 0 0x12, .load 3071 0xAB, .step 0xFFFF 0xA7, .tick, .reset], WithinContract op := by
  simp [WithinContract]

theorem test_witness_StepRunsTheDecodedInstruction :
    decodeBytes [(State.reset.withFetchWord 16 0x6A02).memRead 0x200, (State.reset.withFetchWord 16 0x6A02).memRead 0x201] =
      .ok (.ldImm 0xA 0x02, []) := by decide

/-- At the end of memory the second byte is at address 0. -/
theorem test_witness_StepRunsTheDecodedInstruction_wrap :
    decodeBytes [(withBytes [(0xFFF, 0x5A), (0, 0xB1)] .reset).memRead 0xFFF,
      (withBytes [(0xFFF, 0x5A), (0, 0xB1)] .reset).memRead ((0xFFF + 1) % 4096)] = .ok (.ignored 0x5AB1, []) := by decide

theorem test_witness_SelfJumpEndsTheRun : (fetch (State.reset.withFetchWord 16 0x1200)).toNat = 0x1000 + 0x200 := by decide

theorem test_witness_HostHistoryDependsOnTheNineItems :
    SameArch State.reset { State.reset with keys := 0x8001, rnd := some 7, draws := 3 } ∧
      ∀ op ∈ [HostOp.step 0 0, .load 3071 1], WithinContract op :=
  ⟨⟨rfl, rfl, rfl, rfl, rfl, rfl, rfl, rfl, rfl⟩, by simp [WithinContract]⟩

/-- An instruction that writes none of these, with a register it does not write. -/
theorem test_witness_OnlyDestinationRegistersChange :
    ¬ writesReg (.addReg 1 2) 3 ∧ ¬ writesReg (.drw 1 2 0) 15 ∧ ¬ writesReg (.loadRegs 14) 15 ∧ ¬ writesReg .cls 0 := by
  simp [writesReg]

theorem test_witness_OnlyNamedInstructionsWriteState :
    ¬ writesIndex (.loadRegs 3) ∧ ¬ writesSP .cls ∧ ¬ writesSlots .ret ∧ ¬ writesDT (.ldSTVx 0) ∧ ¬ writesST (.ldDTVx 0) ∧
      ¬ writesDisplay (.drw 1 2 0) := by
  simp [writesIndex, writesSP, writesSlots, writesDT, writesST, writesDisplay]

theorem test_witness_OnlyStoresChangeMemory :
    ¬ writesMemory (decode (fetch (State.reset.withFetchWord 16 0xF165))) ∧
      ¬ writesMemory (decode (fetch (State.reset.withFetchWord 16 0x00E0))) := by
  rw [show decode (fetch (State.reset.withFetchWord 16 0xF165)) = .loadRegs 1 by decide,
    show decode (fetch (State.reset.withFetchWord 16 0x00E0)) = .cls by decide]
  simp [writesMemory]

theorem test_witness_PortsReadOnlyByTheirInstructions :
    ¬ readsKeys (.rnd 0 1) ∧ ¬ readsRandom (.skp 0) := by simp [readsKeys, readsRandom]

/-- The ticks statement's third part: a step that writes neither timer. -/
theorem test_witness_TicksCountDownAndStepsDoNot :
    ¬ writesDT (decode (fetch State.reset)) ∧ ¬ writesST (decode (fetch State.reset)) := by
  rw [show decode (fetch State.reset) = .ignored 0 by decide]; simp [writesDT, writesST]

theorem test_witness_DecodeEncodeRoundTrip :
    (Instr.drw 15 0 15).wellFormed = true ∧ (Instr.ignored 0xFFFF).wellFormed = true ∧ (Instr.jp 0xFFF).wellFormed = true := by
  decide

/-- A row that covers a word, and one that does not. -/
theorem test_witness_DecoderFollowsTheOpcodeMap :
    (∃ r ∈ opcodeRows, r.covers 0x8014 = true ∧ (decode 0x8014).pattern = some r.pattern) ∧
      ∃ r ∈ opcodeRows, r.covers 0x8014 = false := by decide

theorem test_witness_IgnoredWordsAreThoseNoRowCovers :
    (ignoredWord 0x01E0 = true ∧ ∀ r ∈ opcodeRows, r.covers 0x01E0 = false) ∧
      (ignoredWord 0x00E0 = false ∧ ∃ r ∈ opcodeRows, r.covers 0x00E0 = true) := by decide

/-- An address written twice, the second time by its alias above 4096, and one not written. -/
theorem test_witness_MemoryReadsReturnTheLastWrite :
    (withBytes [(0xFFF, 1), (0x1FFF, 2)] .reset).memRead 0xFFF = 2 ∧
      (withBytes [(0xFFF, 1), (0x1FFF, 2)] .reset).memRead 0x1000 = State.reset.memRead 0 := by decide

/-- Two memories made by the same writes in different orders. -/
theorem test_witness_CanonicalMemoriesAreEqualWhenReadsAre :
    Memory.wf (Memory.write (Memory.write [] 0 1) 4095 2) ∧ Memory.wf (Memory.write (Memory.write [] 4095 2) 0 1) ∧
      ∀ a, a < 4096 → Memory.read (Memory.write (Memory.write [] 0 1) 4095 2) a =
        Memory.read (Memory.write (Memory.write [] 4095 2) 0 1) a := by
  refine ⟨Memory.wf_write (Memory.wf_write Memory.wf_nil (by decide) _) (by decide) _,
    Memory.wf_write (Memory.wf_write Memory.wf_nil (by decide) _) (by decide) _, fun a _ => ?_⟩
  simp only [Memory.read_write]
  split <;> split <;> first | rfl | omega

/-- The next instruction just ahead, and across the end of memory. -/
theorem test_witness_StoredBytesAreFetchedNext :
    1 ≤ (1 : Nibble).toNat ∧
      ({ State.reset with I := 0x202 }).I.toNat = (({ State.reset with I := 0x202 }).PC.toNat + 2) % 4096 ∧
      ({ State.reset with PC := 0xFFE, I := 0 }).I.toNat =
        (({ State.reset with PC := 0xFFE, I := 0 }).PC.toNat + 2) % 4096 := by decide

/-- The depths at which RET's and CALL's clauses change: an empty stack, one entry, one slot left, a full stack. -/
theorem test_witness_ReturnGoesTwoPastThePoppedAddress :
    nextIs (execRet (withStack 0 0 0xFFF .reset)) (fun t => t.SP == 0 && t.PC == 0x001) = true ∧
    nextIs (execRet (withStack 1 0 0x204 .reset)) (fun t => t.SP == 0 && t.PC == 0x206) = true ∧
    nextIs (execRet (withStack 16 15 0x300 .reset)) (fun t => t.SP == 15 && t.PC == 0x302) = true := by decide

theorem test_witness_CallPushesItsOwnAddress :
    State.reset.SP.val < 16 ∧ (withStack 15 0 0 .reset).SP.val < 16 ∧ (withStack 16 0 0 .reset).SP.val = 16 := by decide

theorem test_witness_PushIsDroppedOnAFullStack :
    ((withStack 15 0 0 .reset).push 0xFFF).slot 15 = 0xFFF ∧ ((withStack 15 0 0 .reset).push 0xFFF).SP = 16 ∧
      ((withStack 16 15 0x400 .reset).push 0xFFF).slot 15 = 0x400 := by decide

/-- After the call at depth 15 the state itself is one with the same stack. -/
theorem test_witness_CallThenReturnRoundTrip :
    (withStack 15 0 0 .reset).SP.val < 16 ∧
      SameStack ((withStack 15 0 0 .reset).push 0x200) ((withStack 15 0 0 .reset).push 0x200) := ⟨by decide, rfl, fun _ => rfl⟩

theorem test_witness_JumpSetsOnlyTheProgramCounter : (0x200 : Addr) = State.reset.PC := by decide

/-- A skip taken and one not taken. -/
theorem test_witness_SkipsComparingWithAnImmediate :
    (withRegs [(15, 0xFF)] .reset).reg 15 = 0xFF ∧ State.reset.reg 15 ≠ 0xFF := by decide

theorem test_witness_SkipsComparingTwoRegisters :
    (1 : Nibble) ≠ 0 ∧ (15 : Nibble) ≠ 0 ∧ State.reset.reg 1 = State.reset.reg 2 ∧
      (withRegs [(1, 7)] .reset).reg 1 ≠ (withRegs [(1, 7)] .reset).reg 2 := by decide

theorem test_witness_IgnoredEncodingOnlyAdvances : ignoredWord 0x0000 = true ∧ ignoredWord 0xFFFF = true := by decide

/-- The carry's edge: a sum of 255 and one of 256; a destination other than VF and VF itself. -/
theorem test_witness_AddSetsCarry :
    nextIs (execAddReg 0 1 (withRegs [(0, 0xFF), (1, 0)] .reset)) (fun t => t.reg 0 == 0xFF && t.reg 15 == 0) = true ∧
    nextIs (execAddReg 0 1 (withRegs [(0, 0x80), (1, 0x80)] .reset)) (fun t => t.reg 0 == 0 && t.reg 15 == 1) = true ∧
    nextIs (execAddReg 15 1 (withRegs [(15, 0xFF), (1, 0)] .reset)) (fun t => t.reg 15 == 0) = true := by decide

/-- The flag's edge: operands one apart on either side and equal; VF as the destination. -/
theorem test_witness_SubtractionsSetStrictlyGreater :
    nextIs (execSubReg 0 1 (withRegs [(0, 1), (1, 0)] .reset)) (fun t => t.reg 0 == 1 && t.reg 15 == 1) = true ∧
    nextIs (execSubReg 0 1 (withRegs [(0, 0), (1, 1)] .reset)) (fun t => t.reg 0 == 0xFF && t.reg 15 == 0) = true ∧
    nextIs (execSubnReg 15 1 (withRegs [(15, 4), (1, 5)] .reset)) (fun t => t.reg 15 == 1) = true := by decide

theorem test_witness_ShiftsSetTheBitShiftedOut :
    nextIs (execShr 2 0 (withRegs [(2, 1)] .reset)) (fun t => t.reg 2 == 0 && t.reg 15 == 1) = true ∧
    nextIs (execShl 2 0 (withRegs [(2, 0x7F)] .reset)) (fun t => t.reg 2 == 0xFE && t.reg 15 == 0) = true ∧
    nextIs (execShl 15 0 (withRegs [(15, 0x81)] .reset)) (fun t => t.reg 15 == 1) = true := by decide

/-- The least and the greatest mask, and the results they admit. -/
theorem test_witness_RandomByteIsMaskedAndConsumed :
    (0 : Byte) &&& ~~~(0 : Byte) = 0 ∧ (0xFF : Byte) &&& ~~~(0xFF : Byte) = 0 ∧ (0x07 : Byte) &&& ~~~(0x0F : Byte) = 0 := by
  decide

/-- An address outside the three bytes stored, at the end of memory. -/
theorem test_witness_BcdDigitsAreStored : ∀ k, k < 3 → 0x001 % 4096 ≠ (0xFFE + k) % 4096 := by decide

/-- The last register of the longest block, and the address just past it. -/
theorem test_witness_RegisterBlockIsStored :
    (15 : Nibble).toNat ≤ (15 : Nibble).toNat ∧ ∀ k, k ≤ (15 : Nibble).toNat → 0x00A % 4096 ≠ (0xFFA + k) % 4096 := by decide

theorem test_witness_RegisterBlockIsLoaded :
    (2 : Nibble).toNat ≤ (2 : Nibble).toNat ∧ ¬ (3 : Nibble).toNat ≤ (2 : Nibble).toNat := by decide

theorem test_witness_StoreThenLoadRestoresRegisters :
    ∃ t, exec (.storeRegs 15) State.reset = .next t ∧ SameMemory t t ∧ t.I = t.I := ⟨_, rfl, fun _ => rfl, rfl⟩

/-- A cell inside the one-pixel sprite at (63, 31), on before the draw, and one outside it. -/
theorem test_witness_DrawInvertsTheSpritesCells :
    (1 : Nibble) ≠ 0 ∧
      spriteBit (withCells [(63, 31)] (withBytes [(0, 0x80)] .reset)) 63 31 1 63 31 ∧
      (withCells [(63, 31)] (withBytes [(0, 0x80)] .reset)).pixel 63 31 = true ∧
      ¬ spriteBit (withCells [(63, 31)] (withBytes [(0, 0x80)] .reset)) 63 31 1 0 31 := by
  refine ⟨by decide, ⟨0, 0, by decide, by decide, by decide, by decide, by decide⟩, by decide, ?_⟩
  rintro ⟨r, c, hr, hc, hx, -, hb⟩
  have hr : r = 0 := by omega
  have hc : c = 1 := by simp at hx; omega
  subst hr hc
  revert hb; decide

/-- The height's greatest value, and a sprite with no set bit, for which no cell collides. -/
theorem test_witness_DrawInvertsTheSpritesCells_none :
    (15 : Nibble) ≠ 0 ∧ ¬ ∃ px py, spriteBit ({ State.reset with I := 0x300 }) 0 0 15 px py ∧
      ({ State.reset with I := 0x300 }).pixel px py = true := by
  refine ⟨by decide, ?_⟩
  rintro ⟨px, py, ⟨r, c, hr, hc, -, -, hb⟩, -⟩
  change (unlisted ((0x300 + r) % 4096)).getLsbD (7 - c) = true at hb
  rw [unlisted, if_neg (by have : r < 15 := hr; omega)] at hb
  simp at hb

/-- A first draw that leaves its origin registers, so that the second is at the same place. -/
theorem test_witness_DrawingTwiceErases :
    ∃ t, exec (.drw 0 1 5) (withRegs [(0, 63), (1, 31)] .reset) = .next t ∧
      t.reg 0 = (withRegs [(0, 63), (1, 31)] .reset).reg 0 ∧ t.reg 1 = (withRegs [(0, 63), (1, 31)] .reset).reg 1 :=
  ⟨_, rfl, by decide, by decide⟩

/-- Two places of one sprite with one cell are one place. -/
theorem test_witness_FramebufferAddressGenerator :
    (14 : Nat) < 15 ∧ (7 : Nat) < 8 ∧
      linearCell (columnOf 0xFF 7) (rowOf 0xFF 14) = linearCell (columnOf 0xFF 7) (rowOf 0xFF 14) := ⟨by decide, by decide, rfl⟩

/-- The digit F in a register, on the memory the reset leaves of a chip with a table of its own. -/
theorem test_witness_GlyphOfADigitIsDrawn :
    ((withRegs [(3, 0x0F)] (.resetWith otherTable)).reg 3).toNat = (0xF : Nibble).toNat ∧
      ∀ k, k < 80 → (withRegs [(3, 0x0F)] (.resetWith otherTable)).memRead k = tableByte otherTable k := by
  refine ⟨by decide, fun k hk => ?_⟩
  change (State.resetWith otherTable).memRead k = _
  rw [State.resetWith_memRead, Nat.mod_eq_of_lt (by omega), if_pos hk]

/-- Key 15, the greatest, down; 16 names no key though every key is down. -/
theorem test_witness_SkipIfKeyDown :
    KeyIsDown ({ State.reset with keys := 0x8000 }) 15 ∧ ¬ KeyIsDown ({ State.reset with keys := 0xFFFF }) 16 := by decide

theorem test_witness_SkipIfKeyNotDown :
    ¬ KeyIsDown ({ State.reset with keys := 0xFFFF }) 0xFF ∧ KeyIsDown ({ State.reset with keys := 1 }) 0 := by decide

/-- No key down; key 15 alone down, so the least. -/
theorem test_witness_KeyWaitTakesTheLeastKey :
    (∀ k, k < 16 → State.reset.keys.getLsbD k = false) ∧
      ({ State.reset with keys := 0x8000 }).keys.getLsbD 15 = true ∧
      ∀ j, j < 15 → ({ State.reset with keys := 0x8000 }).keys.getLsbD j = false := by decide

/-- A tone of two ticks: on after one, off after two. -/
theorem test_witness_SoundIsActiveUntilTheTimerRunsOut :
    nextIs (execLdSTVx 0 (withRegs [(0, 2)] .reset))
      (fun t => isSoundActive (tick t) && !isSoundActive (tick (tick t))) = true := by decide

/-- The ends of the contract's range, and an address just past the byte written. -/
theorem test_witness_LoadByteWritesOneProgramByte :
    (0 : BitVec 12).toNat ≤ 3071 ∧ (3071 : BitVec 12).toNat ≤ 3071 ∧ 0xE00 % 4096 ≠ 0x200 + (3071 : BitVec 12).toNat := by decide

/-- The first offset past the contract, the last a call can name, and an operation before the first reset. -/
theorem test_witness_CallsOutsideTheContractAreRefused :
    3072 ≤ (3072 : BitVec 12).toNat ∧ 3072 ≤ (4095 : BitVec 12).toNat ∧ HostOp.tick ≠ .reset := by decide

/-- The addresses at which the reset values change: the last of the glyph table, the first after it, the last of memory. -/
theorem test_witness_ResetLeavesTheStatedValues :
    (State.resetWith otherTable).memRead 79 = otherTable[79] ∧ (State.resetWith otherTable).memRead 80 = 0 ∧
      (State.resetWith otherTable).memRead 4095 = 0 := by decide

end Sys2Proof.Tests
end

section
/-! SUPPORT. Every instruction is its writes and then one jump to the next `PC` of R73's table: what the writes change and
what they read, said once. -/

namespace Sys2Proof.Machine

open Sys2Proof.Safety

/-! ## The writes of an instruction -/

/-- What an instruction does to the state apart from the program counter; `exec_eq_jump_effect` ties it to `exec`. -/
def effect (i : Instr) (s : State) : State :=
  match i with
  | .cls => s.withFb FrameBuffer.clear
  | .ret => s.pop
  | .call _ => s.push s.PC
  | .ldImm x nn => s.writeReg x nn
  | .addImm x nn => s.writeReg x (s.reg x + nn)
  | .ldReg x y => s.writeReg x (s.reg y)
  | .orReg x y => s.writeReg x (s.reg x ||| s.reg y)
  | .andReg x y => s.writeReg x (s.reg x &&& s.reg y)
  | .xorReg x y => s.writeReg x (s.reg x ^^^ s.reg y)
  | .addReg x y => s.writeResultFlag x (s.reg x + s.reg y) (carryOut (s.reg x) (s.reg y))
  | .subReg x y => s.writeResultFlag x (s.reg x - s.reg y) (strictlyGreater (s.reg x) (s.reg y))
  | .shr x _ => s.writeResultFlag x (s.reg x >>> 1) (bitShiftedRight (s.reg x))
  | .subnReg x y => s.writeResultFlag x (s.reg y - s.reg x) (strictlyGreater (s.reg y) (s.reg x))
  | .shl x _ => s.writeResultFlag x (s.reg x <<< 1) (bitShiftedLeft (s.reg x))
  | .ldI nnn => s.writeI nnn
  | .rnd x nn => (s.writeReg x (nn &&& s.randomByte)).consumeRandom
  | .drw x y n =>
    if n = 0 then s
    else (s.withFb (drawSprite s (s.reg x) (s.reg y) n.toNat).1).writeFlag (drawSprite s (s.reg x) (s.reg y) n.toNat).2
  | .ldVxDT x => s.writeReg x s.DT
  | .ldVxK x => (firstKeyDown s.keys).elim s fun k => s.writeReg x (BitVec.ofNat 8 k)
  | .ldDTVx x => s.writeDT (s.reg x)
  | .ldSTVx x => s.writeST (s.reg x)
  | .addI x => s.writeI (indexPlus s.I (s.reg x))
  | .ldF x => s.writeI (glyphAddr (s.reg x))
  | .ldB x =>
    ((s.memWrite (s.effective 0) (hundreds (s.reg x))).memWrite (s.effective 1) (tens (s.reg x))).memWrite
      (s.effective 2) (ones (s.reg x))
  | .storeRegs x => s.storeBlock (x.toNat + 1)
  | .loadRegs x => s.loadBlock (x.toNat + 1)
  | _ => s

/-- `DXY0` writes nothing (R124, D8). -/
theorem effect_drw_zero (s : State) (x y : Nibble) {n : Nibble} (hn : n = 0) : effect (.drw x y n) s = s := if_pos hn

/-- `DXYN` of one row or more writes the framebuffer and then `VF` (R122, D4). -/
theorem effect_drw_rows (s : State) (x y : Nibble) {n : Nibble} (hn : n ≠ 0) : effect (.drw x y n) s =
    (s.withFb (drawSprite s (s.reg x) (s.reg y) n.toNat).1).writeFlag (drawSprite s (s.reg x) (s.reg y) n.toNat).2 :=
  if_neg hn

/-! ## Every instruction completes, and where it goes -/

/-- The default advance as a jump to the unreduced `PC + 2` (R73, R74). -/
theorem State.advance_eq_jump_ofNat (s : State) : s.advance = s.jump (BitVec.ofNat 12 (s.PC.toNat + 2)) := by
  simp [State.advance, BitVec.ofNat_add]

/-- A skip as a jump to an unreduced address (R76, R74). -/
theorem State.skipIf_eq_jump_ofNat (s : State) (c : Bool) :
    s.skipIf c = s.jump (BitVec.ofNat 12 (if c then s.PC.toNat + 4 else s.PC.toNat + 2)) := by
  rw [State.skipIf_eq_jump]
  cases c <;> simp [BitVec.ofNat_add]

/-- The value a pop returns, as a slot (R17, D3). -/
theorem State.top_eq_slot (s : State) : s.top = s.slot (BitVec.ofNat 4 (s.SP.val - 1)) := by
  have h : (BitVec.ofNat 4 (s.SP.val - 1)).toNat = s.SP.val - 1 := by
    rw [BitVec.toNat_ofNat]; omega
  simp [State.top, State.slot, popIndex, h]

/-- The test of the key instructions is the key query of the statements (R131). -/
theorem keyDown_eq_true_iff (s : State) (v : Byte) : keyDown s.keys v = true ↔ KeyIsDown s v := by
  simp [keyDown]

@[simp] theorem State.storeBlock_PC (s : State) (n : Nat) : (s.storeBlock n).PC = s.PC := by
  rw [State.storeBlock_frame]

@[simp] theorem State.loadBlock_PC (s : State) (n : Nat) : (s.loadBlock n).PC = s.PC := by
  rw [State.loadBlock_frame]

/-- Every instruction completes: its writes, then a jump to the next `PC` of R73's table, reduced modulo 4096 (R73, R74, R150). -/
theorem exec_eq_jump_effect (i : Instr) (s : State) :
    exec i s = .next ((effect i s).jump (BitVec.ofNat 12 (nextPC i s))) := by
  cases i with
  | jp nnn | call nnn => simp [exec, execJp, execCall, effect, nextPC]
  | jpV0 nnn => rfl
  | ret => simp [exec, execRet, effect, nextPC, State.top_eq_slot, BitVec.ofNat_add]
  | seImm x _ | sneImm x _ | seReg x _ | sneReg x _ =>
    simp [exec, execSeImm, execSneImm, execSeReg, execSneReg, effect, nextPC, State.skipIf_eq_jump_ofNat]
  | skp x | sknp x =>
    cases hd : keyDown s.keys (s.reg x) <;>
      simp [exec, execSkp, execSknp, effect, nextPC, State.skipIf_eq_jump_ofNat, ← keyDown_eq_true_iff, hd]
  | drw x y n =>
    rw [exec, execDrw]
    by_cases hn : n = 0
    · rw [if_pos hn, effect_drw_zero s x y hn, State.advance_eq_jump_ofNat]
      rfl
    · rw [if_neg hn, effect_drw_rows s x y hn, State.advance_eq_jump_ofNat]
      rfl
  | ldVxK x =>
    rcases firstKeyDown_spec s.keys with ⟨k, hk, -, hd, -⟩ | ⟨hk, h0⟩
    · have h0 : s.keys ≠ 0 := fun h => by simp [h] at hd
      have hpc : nextPC (.ldVxK x) s = s.PC.toNat + 2 := if_neg h0
      simp [exec, execLdVxK, effect, hpc, hk, State.advance_eq_jump_ofNat]
    · have hpc : nextPC (.ldVxK x) s = s.PC.toNat := if_pos h0
      simp [exec, execLdVxK, effect, hpc, hk]
  | storeRegs x | loadRegs x =>
    simp [exec, execStoreRegs, execLoadRegs, effect, nextPC, State.advance_eq_jump_ofNat]
  | _ => exact congrArg Host.Outcome.next (State.advance_eq_jump_ofNat _)

/-! ## What the writes leave unchanged -/

/-- The writes of an instruction change no register but those its rule names (R11, R12). -/
theorem effect_reg {i : Instr} {r : Nibble} (h : ¬ writesReg i r) (s : State) : (effect i s).reg r = s.reg r := by
  cases i with
  | ldImm x _ | addImm x _ | ldReg x _ | orReg x _ | andReg x _ | xorReg x _ | rnd x _ | ldVxDT x =>
    have hx : r ≠ x := h
    simp [effect, hx]
  | addReg x _ | subReg x _ | shr x _ | subnReg x _ | shl x _ =>
    obtain ⟨hx, hf⟩ := not_or.mp h
    exact ((State.reg_writeResultFlag s x r _ _).trans (if_neg hf)).trans (if_neg hx)
  | ldVxK x =>
    have hx : r ≠ x := h
    cases hk : firstKeyDown s.keys <;> simp [effect, hk, hx]
  | drw x y n =>
    by_cases hn : n = 0
    · rw [effect_drw_zero s x y hn]
    · have hf : r ≠ 15 := fun hr => h ⟨hn, hr⟩
      rw [effect_drw_rows s x y hn, State.reg_writeFlag, if_neg hf, State.withFb_reg]
  | loadRegs x =>
    have hr : ¬ r.toNat < x.toNat + 1 := fun hlt => h (Nat.le_of_lt_succ hlt)
    rw [effect, State.reg_loadBlock s (by omega), if_neg hr]
  | storeRegs x => exact s.storeBlock_reg _ r
  | call _ => simp [effect, State.reg, s.push_frame]
  | _ => rfl

/-- The writes of an instruction change `I`, `SP`, the slots, the timers and the framebuffer only where R10 names it. -/
theorem effect_frame (i : Instr) (s : State) :
    (¬ writesIndex i → (effect i s).I = s.I) ∧ (¬ writesSP i → (effect i s).SP = s.SP) ∧
    (¬ writesSlots i → (effect i s).stack = s.stack) ∧ (¬ writesDT i → (effect i s).DT = s.DT) ∧
    (¬ writesST i → (effect i s).ST = s.ST) ∧ (¬ writesDisplay i → (effect i s).fb = s.fb) := by
  cases i with
  | cls | ret | ldI _ | ldDTVx _ | ldSTVx _ | addI _ | ldF _ =>
    simp [effect, writesIndex, writesSP, writesDT, writesST, writesDisplay]
  | call _ => simp [effect, writesSP, writesSlots, s.push_frame]
  | drw x y n =>
    by_cases hn : n = 0
    · simp [effect_drw_zero s x y hn]
    · simp [effect_drw_rows s x y hn, show writesDisplay (.drw x y n) from hn]
  | ldVxK x => cases hk : firstKeyDown s.keys <;> simp [effect, hk]
  | storeRegs x => rw [effect, State.storeBlock_frame]; simp
  | loadRegs x => rw [effect, State.loadBlock_frame]; simp
  | _ => simp [effect]

/-! ## What the writes read of the random port -/

/-- The state with another random port: the byte presented there, and the count that numbers the free values (R21; log entry 4). -/
def State.withRandom (s : State) (b : Option Byte) (d : Nat) : State := { s with rnd := b, draws := d }

theorem State.push_withRandom (s : State) (b : Option Byte) (d : Nat) (a : Addr) :
    (s.withRandom b d).push a = (s.push a).withRandom b d := by
  by_cases h : s.SP.val < 16 <;> simp [State.push, State.withRandom, h]

theorem State.storeBlock_withRandom (s : State) (b : Option Byte) (d n : Nat) :
    (s.withRandom b d).storeBlock n = (s.storeBlock n).withRandom b d := by
  induction n with
  | zero => rfl
  | succ n ih => rw [State.storeBlock_succ, State.storeBlock_succ, ih]; rfl

theorem State.loadBlock_withRandom (s : State) (b : Option Byte) (d n : Nat) :
    (s.withRandom b d).loadBlock n = (s.loadBlock n).withRandom b d := by
  induction n with
  | zero => rfl
  | succ n ih => rw [State.loadBlock_succ, State.loadBlock_succ, ih]; rfl

/-- An instruction other than `CXNN` writes the same whatever stands at the random port, and leaves the port (R101). -/
theorem effect_withRandom {i : Instr} (h : ¬ readsRandom i) (s : State) (b : Option Byte) (d : Nat) :
    effect i (s.withRandom b d) = (effect i s).withRandom b d := by
  cases i with
  | rnd _ _ => exact absurd trivial h
  | call _ => exact s.push_withRandom b d _
  | drw x y n =>
    by_cases hn : n = 0
    · rw [effect_drw_zero _ x y hn, effect_drw_zero _ x y hn]
    · rw [effect_drw_rows _ x y hn, effect_drw_rows _ x y hn]
      rfl
  | ldVxK x =>
    have hp : (s.withRandom b d).keys = s.keys := rfl
    cases hk : firstKeyDown s.keys <;> simp only [effect, hp, hk] <;> rfl
  | storeRegs x => exact s.storeBlock_withRandom b d _
  | loadRegs x => exact s.loadBlock_withRandom b d _
  | _ => rfl

/-- The next `PC` does not depend on the random port (R73). -/
theorem nextPC_withRandom (i : Instr) (s : State) (b : Option Byte) (d : Nat) :
    nextPC i (s.withRandom b d) = nextPC i s := by
  cases i <;> rfl

end Sys2Proof.Machine

namespace Sys2Proof.Safety

open Sys2Proof.Machine

/-! ## Two states that agree on the nine items of R10 -/

/-- Two states that agree on the nine items and on the keys differ at the random port alone. -/
theorem SameArch.eq_withRandom {s s' : State} (h : SameArch s s') (hk : s'.keys = s.keys) :
    s' = s.withRandom s'.rnd s'.draws := by
  obtain ⟨hm, hV, hI, hPC, hst, hSP, hDT, hST, hfb⟩ := h
  cases s
  cases s'
  simp_all [State.withRandom]

theorem SameArch.withRandom (s : State) (b : Option Byte) (d : Nat) : SameArch s (s.withRandom b d) :=
  ⟨rfl, rfl, rfl, rfl, rfl, rfl, rfl, rfl, rfl⟩

theorem SameArch.jump {s s' : State} (h : SameArch s s') (a : Addr) : SameArch (s.jump a) (s'.jump a) := by
  obtain ⟨hm, hV, hI, -, hst, hSP, hDT, hST, hfb⟩ := h
  exact ⟨hm, hV, hI, rfl, hst, hSP, hDT, hST, hfb⟩

theorem SameArch.memWrite {s s' : State} (h : SameArch s s') (a : Nat) (b : Byte) :
    SameArch (s.memWrite a b) (s'.memWrite a b) := by
  obtain ⟨hm, hrest⟩ := h
  exact ⟨congrArg (Memory.write · (a % Config.memSize) b) hm, hrest⟩

theorem SameArch.tick {s s' : State} (h : SameArch s s') : SameArch (tick s) (tick s') := by
  obtain ⟨hm, hV, hI, hPC, hst, hSP, hDT, hST, hfb⟩ := h
  exact ⟨hm, hV, hI, hPC, hst, hSP, congrArg countDown hDT, congrArg countDown hST, hfb⟩

theorem SameArch.present {s s' : State} (h : SameArch s s') (keys : BitVec 16) (rnd : Byte) :
    SameArch (s.present keys rnd) (s'.present keys rnd) := h

/-- The writes of an instruction agree on two states that agree on the nine items, the keys and the byte a `CXNN` would find. -/
theorem SameArch.effect {s s' : State} (h : SameArch s s') (hk : s'.keys = s.keys) (hb : s'.randomByte = s.randomByte)
    (i : Instr) : SameArch (effect i s) (effect i s') := by
  obtain ⟨b, d, rfl⟩ : ∃ b d, s' = s.withRandom b d := ⟨_, _, h.eq_withRandom hk⟩
  by_cases hr : readsRandom i
  · cases i with
    | rnd x nn =>
      rw [Machine.effect, Machine.effect, hb]
      exact ⟨rfl, rfl, rfl, rfl, rfl, rfl, rfl, rfl, rfl⟩
    | _ => exact hr.elim
  · rw [effect_withRandom hr]
    exact SameArch.withRandom _ b d

/-- An instruction takes two states that agree on the nine items, the keys and the byte a `CXNN` would find to two that agree
on the nine items. -/
theorem SameArch.exec {s s' : State} (h : SameArch s s') (hk : s'.keys = s.keys) (hb : s'.randomByte = s.randomByte)
    (i : Instr) : ∃ t t', exec i s = .next t ∧ exec i s' = .next t' ∧ SameArch t t' := by
  refine ⟨_, _, exec_eq_jump_effect i s, exec_eq_jump_effect i s', ?_⟩
  have hpc : nextPC i s' = nextPC i s := by rw [h.eq_withRandom hk, nextPC_withRandom]
  rw [hpc]
  exact (h.effect hk hb i).jump _

theorem SameArch.fetch_eq {s s' : State} (h : SameArch s s') : fetch s' = fetch s := by
  obtain ⟨hm, -, -, hPC, -⟩ := h
  simp only [fetch, State.memRead, hm, hPC]

/-- A host step presents its own keys and byte, so agreement on the nine items is all it needs (R143). -/
theorem SameArch.hostStep {s s' : State} (h : SameArch s s') (keys : BitVec 16) (rnd : Byte) :
    ∃ t t', hostStep keys rnd s = .next t ∧ hostStep keys rnd s' = .next t' ∧ SameArch t t' := by
  have hp := h.present keys rnd
  obtain ⟨t, t', ht, ht', hs⟩ := hp.exec rfl rfl (decode (fetch (s.present keys rnd)))
  exact ⟨t, t', ht, by rw [Machine.hostStep, step, hp.fetch_eq, ht'], hs⟩

/-- One host operation inside the contract keeps two states in agreement on the nine items. -/
theorem SameArch.applyHostOp {s s' : State} (h : SameArch s s') (table : Config.GlyphTable) {op : HostOp}
    (hc : WithinContract op) :
    ∃ t t', applyHostOp table op s = .next t ∧ applyHostOp table op s' = .next t' ∧ SameArch t t' := by
  cases op with
  | reset => exact ⟨_, _, rfl, rfl, rfl, rfl, rfl, rfl, rfl, rfl, rfl, rfl, rfl⟩
  | load offset b => exact ⟨_, _, if_pos hc, if_pos hc, h.memWrite _ b⟩
  | step keys rnd => exact h.hostStep keys rnd
  | tick => exact ⟨_, _, rfl, rfl, h.tick⟩

end Sys2Proof.Safety
end

section
/-! The family of spec/10_state.md: the statements settled. -/

namespace Sys2Proof.StateFamily

open Sys2Proof.Machine Sys2Proof.Safety

/-- Settles O13, by induction on the operations: each one keeps two states in agreement (`SameArch.applyHostOp`). -/
theorem hostHistoryDependsOnTheNineItems : Obligations.HostHistoryDependsOnTheNineItems := by
  unfold Obligations.HostHistoryDependsOnTheNineItems
  intro table ops
  induction ops with
  | nil => exact fun s s' h _ => ⟨s, s', rfl, rfl, h⟩
  | cons op ops ih =>
    intro s s' h hc
    obtain ⟨hop, hops⟩ := List.forall_mem_cons.mp hc
    obtain ⟨t, t', ht, ht', hs⟩ := h.applyHostOp table hop
    simp only [runHost, ht, ht']
    exact ih t t' hs hops

/-- Settles O9: the jump that ends an instruction changes no register, and its writes only those of its rule (`effect_reg`). -/
theorem onlyDestinationRegistersChange : Obligations.OnlyDestinationRegistersChange := by
  unfold Obligations.OnlyDestinationRegistersChange
  exact fun i s => ⟨_, exec_eq_jump_effect i s, fun _ h => effect_reg h s⟩

/-- Settles O10: the jump that ends an instruction leaves all of these, and its writes change only what R10 names (`effect_frame`). -/
theorem onlyNamedInstructionsWriteState : Obligations.OnlyNamedInstructionsWriteState := by
  unfold Obligations.OnlyNamedInstructionsWriteState
  intro i s
  obtain ⟨hI, hSP, hslots, hDT, hST, hfb⟩ := effect_frame i s
  refine ⟨_, exec_eq_jump_effect i s, hI, hSP, fun h k => ?_, hDT, hST, fun h px py => ?_⟩
  · simp [State.slot, hslots h]
  · simp [State.pixel, hfb h]

/-- Settles O1, from the fields of the reset state and `State.resetWith_memRead`. -/
theorem resetLeavesTheStatedValues : Obligations.ResetLeavesTheStatedValues := by
  unfold Obligations.ResetLeavesTheStatedValues
  intro table
  refine ⟨State.resetWith table, rfl, fun r => ?_, rfl, rfl, fun k => ?_, rfl, rfl, rfl, fun px py => ?_, rfl,
    fun k => ?_, fun a hlow hhigh => ?_⟩
  · simp [State.reg, State.reset]
  · simp [State.slot, State.reset]
  · exact FrameBuffer.get_clear px py
  · have hk : k.val % 4096 = k.val := by omega
    simp [State.resetWith_memRead, hk, tableByte]
  · have ha : ¬ a % 4096 < 80 := by omega
    rw [State.resetWith_memRead, if_neg ha]

/-- Settles O2: the reset memory lists nothing, or the bytes in which the table differs from the default. -/
theorem resetMeetsTheInvariant : Obligations.ResetMeetsTheInvariant := by
  unfold Obligations.ResetMeetsTheInvariant
  exact ⟨Memory.wf_nil, State.resetWith_wf⟩

/-- Settles O26: the slot and `SP` after a push by `State.slot_push` and `State.SP_push`, everything else by `State.push_frame`. -/
theorem pushIsDroppedOnAFullStack : Obligations.PushIsDroppedOnAFullStack := by
  unfold Obligations.PushIsDroppedOnAFullStack
  intro v s
  constructor
  · intro hlt
    obtain ⟨hm, hV, hI, hPC, hDT, hST, hfb, hkeys, hrnd, hdraws⟩ := s.push_frame v
    have hSP : (s.push v).SP.val = s.SP.val + 1 := by rw [State.SP_push]; omega
    refine ⟨hSP, ⟨fun r => ?_, hI, fun a => ?_, fun px py => ?_, ⟨hDT, hST⟩, hkeys, hrnd, hdraws⟩, hPC, s.slot_push v⟩
    · simp only [State.reg, hV]
    · simp only [State.memRead, hm]
    · simp only [State.pixel, hfb]
  · intro hfull
    rcases s.push_cases v with ⟨-, h⟩ | ⟨hlt, -⟩
    · exact h
    · omega

end Sys2Proof.StateFamily
end

section
/-! SUPPORT. What the writes of an instruction do to memory, the cells of a canonical memory, and the word a fetch puts together. -/

namespace Sys2Proof

/-- The number of a word whose first byte is the high one (R34). -/
theorem wordOfBytes_toNat (hi lo : Byte) : (wordOfBytes hi lo).toNat = hi.toNat * 256 + lo.toNat := by
  rw [wordOfBytes, BitVec.toNat_append, ← Nat.shiftLeft_add_eq_or_of_lt lo.isLt, Nat.shiftLeft_eq]

end Sys2Proof

namespace Sys2Proof.Machine

open Sys2Proof.Safety

/-! ## Memory through the writes of an instruction -/

/-- The writes of an instruction other than `FX33` and `FX55` leave memory's data as it is (R43). -/
theorem effect_memory {i : Instr} (h : ¬ writesMemory i) (s : State) : (effect i s).memory = s.memory := by
  cases i with
  | ldB _ | storeRegs _ => exact absurd trivial h
  | call _ =>
    obtain ⟨hm, -⟩ := s.push_frame s.PC
    exact hm
  | drw x y n =>
    by_cases hn : n = 0
    · rw [effect_drw_zero s x y hn]
    · rw [effect_drw_rows s x y hn, State.writeFlag_memory, State.withFb_memory]
  | ldVxK x => cases hk : firstKeyDown s.keys <;> simp [effect, hk]
  | loadRegs x => rw [effect, State.loadBlock_frame]
  | _ => rfl

/-- The writes of every instruction keep memory's canonical form: the two stores are sequences of byte writes, the others leave
memory. -/
theorem effect_wf {s : State} (h : Memory.wf s.memory) (i : Instr) : Memory.wf (effect i s).memory := by
  by_cases hw : writesMemory i
  · cases i with
    | ldB x => exact State.memWrite_wf (State.memWrite_wf (State.memWrite_wf h _ _) _ _) _ _
    | storeRegs x => exact State.storeBlock_wf h _
    | _ => exact hw.elim
  · rwa [effect_memory hw]

/-! ## The cells of a canonical memory -/

/-- An address that no cell lists reads as its contents after reset. -/
theorem Memory.read_of_unlisted {m : Memory} {a : Nat} (h : ∀ e ∈ m, e.1 ≠ a) : Memory.read m a = unlisted a := by
  induction m with
  | nil => rfl
  | cons e m ih =>
    obtain ⟨he, hm⟩ := List.forall_mem_cons.mp h
    rw [Memory.read, if_neg he, ih hm]

/-- Among cells of rising addresses a listed address reads as its cell says. -/
theorem Memory.read_of_mem {m : Memory} (hp : m.Pairwise (fun c d => c.1 < d.1)) {e : Host.Cell} (he : e ∈ m) :
    Memory.read m e.1 = e.2 := by
  induction m with
  | nil => exact absurd he List.not_mem_nil
  | cons f m ih =>
    obtain ⟨hf, hm⟩ := List.pairwise_cons.mp hp
    rcases List.mem_cons.mp he with rfl | he
    · exact if_pos rfl
    · rw [Memory.read, if_neg (hf e he).ne, ih hm he]

/-- A canonical memory lists exactly the bytes of its address space that are not what an unlisted address reads as. -/
theorem Memory.mem_iff_of_wf {m : Memory} (h : Memory.wf m) (e : Host.Cell) :
    e ∈ m ↔ e.1 < Config.memSize ∧ Memory.read m e.1 = e.2 ∧ e.2 ≠ unlisted e.1 := by
  obtain ⟨hp, hc⟩ := h
  constructor
  · intro he
    obtain ⟨hlt, hne⟩ := hc e he
    exact ⟨hlt, Memory.read_of_mem hp he, hne⟩
  · rintro ⟨-, hr, hne⟩
    by_contra he
    refine hne (hr.symm.trans (Memory.read_of_unlisted fun f hf hfe => he ?_))
    have hv : f.2 = e.2 := by rw [← Memory.read_of_mem hp hf, hfe, hr]
    rwa [← Prod.ext hfe hv]

end Sys2Proof.Machine
end

section
/-! The family of spec/20_memory.md: the statements settled. -/

namespace Sys2Proof.MemoryFamily

open Sys2Proof.Machine Sys2Proof.Safety

/-- Settles O3: the jump that ends an instruction leaves memory, and its writes keep the canonical form (`effect_wf`). -/
theorem stepKeepsMemoryCanonical : Obligations.StepKeepsMemoryCanonical := by
  unfold Obligations.StepKeepsMemoryCanonical
  intro s t hs ht
  rw [step, exec_eq_jump_effect] at ht
  cases ht
  exact effect_wf hs _

/-- Settles O11: the jump that ends an instruction leaves memory, and so do its writes unless it is a store (`effect_memory`). -/
theorem onlyStoresChangeMemory : Obligations.OnlyStoresChangeMemory := by
  unfold Obligations.OnlyStoresChangeMemory
  intro s
  refine ⟨_, exec_eq_jump_effect _ s, fun h a => ?_⟩
  rw [State.jump_memRead, State.memRead, effect_memory h, State.memRead]

/-- Settles O20, by induction on the writes from the last one back: the last write decides, or the ones before it. -/
theorem memoryReadsReturnTheLastWrite : Obligations.MemoryReadsReturnTheLastWrite := by
  unfold Obligations.MemoryReadsReturnTheLastWrite
  refine fun s ws c => ⟨?_, (s.memRead_mod c).symm⟩
  induction ws using List.reverseRecOn with
  | nil => rfl
  | append_singleton ws w ih =>
    rw [List.foldl_append, List.foldl_cons, List.foldl_nil, State.memRead_memWrite, List.reverse_append,
      List.reverse_singleton, List.singleton_append]
    by_cases hw : w.1 % 4096 = c % 4096
    · rw [if_pos hw.symm, List.find?_cons_of_pos (by simpa using hw)]
    · rw [if_neg (Ne.symm hw), List.find?_cons_of_neg (by simpa using hw), ih]

/-- Settles O21: a canonical memory's cells are told by its reads (`Memory.mem_iff_of_wf`), and their order by their addresses. -/
theorem canonicalMemoriesAreEqualWhenReadsAre : Obligations.CanonicalMemoriesAreEqualWhenReadsAre := by
  unfold Obligations.CanonicalMemoriesAreEqualWhenReadsAre
  intro m m' h h' hr
  have asymm : Std.Asymm (fun c d : Host.Cell => c.1 < d.1) := ⟨fun _ _ => Nat.lt_asymm⟩
  refine h.1.eq_of_mem_iff h'.1 fun e => ?_
  rw [Memory.mem_iff_of_wf h, Memory.mem_iff_of_wf h']
  exact and_congr_right fun hlt => by rw [hr e.1 hlt]

/-- Settles O22: the next `PC` is `I`, so the two bytes fetched are the first two of the block stored. -/
theorem storedBytesAreFetchedNext : Obligations.StoredBytesAreFetchedNext := by
  unfold Obligations.StoredBytesAreFetchedNext
  intro x s hx hI
  refine ⟨_, rfl, ?_⟩
  have hPC : (s.PC + 2).toNat = s.I.toNat := hI ▸ BitVec.toNat_add s.PC 2
  have h0 : (s.storeBlock (x.toNat + 1)).memRead s.I.toNat = s.reg 0 :=
    s.storeBlock_memRead_at (k := 0) (by omega) (by omega)
  have h1 : (s.storeBlock (x.toNat + 1)).memRead (s.I.toNat + 1) = s.reg 1 :=
    s.storeBlock_memRead_at (k := 1) (by omega) (by omega)
  simp only [fetch, State.advance_PC, State.advance_memRead, State.storeBlock_PC, hPC, h0, h1, wordOfBytes_toNat]

end Sys2Proof.MemoryFamily
end

section
/-! SUPPORT. The words of an instruction: every word is the encoding of the well-formed instruction it decodes to, and a
well-formed instruction is what its encoding decodes to (R54, R55, R56). -/

namespace Sys2Proof

/-! ## A word from the fields that are known -/

/-- A word of a known family, from its address (format A). -/
theorem formA_of_op {w : Word} {op : Nibble} (ho : opOf w = op) : formA op (nnnOf w) = w := by
  rw [← ho, formA_fields]

/-- A word of a known family, from `x` and its low byte (formats I and X). -/
theorem formI_of_op {w : Word} {op : Nibble} (ho : opOf w = op) : formI op (xOf w) (nnOf w) = w := by
  rw [← ho, formI_fields]

/-- A word of a known family and low byte, from `x` (format X). -/
theorem formI_of_op_nn {w : Word} {op : Nibble} {nn : Byte} (ho : opOf w = op) (hn : nnOf w = nn) :
    formI op (xOf w) nn = w := by
  rw [← hn, formI_of_op ho]

/-- A word of a known family, from its three lower nibbles (format D). -/
theorem formR_of_op {w : Word} {op : Nibble} (ho : opOf w = op) : formR op (xOf w) (yOf w) (nOf w) = w := by
  rw [← ho, formR_fields]

/-- A word of a known family and lowest nibble, from `x` and `y` (format R). -/
theorem formR_of_op_n {w : Word} {op n : Nibble} (ho : opOf w = op) (hn : nOf w = n) :
    formR op (xOf w) (yOf w) n = w := by
  rw [← hn, formR_of_op ho]

/-! ## The instruction a word decodes to encodes to the word -/

/-- The instruction is well formed and `w` is its word. -/
def Instr.IsOfWord (i : Instr) (w : Word) : Prop := i.wellFormed = true ∧ encode i = w

/-- A word of R56's table is the word of an ignored encoding. -/
theorem ignored_isOfWord {w : Word} (h : ignoredWord w = true) : (Instr.ignored w).IsOfWord w := ⟨h, rfl⟩

theorem decodeZero_isOfWord {w : Word} (ho : opOf w = 0x0) : (decodeZero w).IsOfWord w := by
  unfold decodeZero
  split_ifs with hcls hret
  · exact ⟨rfl, hcls.symm⟩
  · exact ⟨rfl, hret.symm⟩
  · refine ignored_isOfWord ((ignoredWord_fields w).mpr (.inl ⟨ho, fun h => hcls ?_, fun h => hret ?_⟩))
    · rw [← formA_of_op ho, h]; rfl
    · rw [← formA_of_op ho, h]; rfl

/-- Families 5 and 9, for an instruction that encodes to `n = 0` in its family. -/
theorem decodeCompare_isOfWord {w : Word} {op : Nibble} {i : Nibble → Nibble → Instr} (ho : opOf w = op)
    (hop : op = 0x5 ∨ op = 0x9) (hi : ∀ x y, (i x y).IsOfWord (formR op x y 0x0)) :
    (decodeCompare i w).IsOfWord w := by
  unfold decodeCompare
  split_ifs with hn
  · have h := hi (xOf w) (yOf w)
    rwa [formR_of_op_n ho hn] at h
  · exact ignored_isOfWord ((ignoredWord_fields w).mpr (.inr (.inl ⟨ho ▸ hop, hn⟩)))

/-- The nibbles that are no sub-opcode of family 8 are those R56 lists. -/
theorem alu_unassigned_of_ne : ∀ n : Nibble, n.toNat ≠ 0x0 → n.toNat ≠ 0x1 → n.toNat ≠ 0x2 → n.toNat ≠ 0x3 →
    n.toNat ≠ 0x4 → n.toNat ≠ 0x5 → n.toNat ≠ 0x6 → n.toNat ≠ 0x7 → n.toNat ≠ 0xE →
    n ∈ [0x8#4, 0x9#4, 0xA#4, 0xB#4, 0xC#4, 0xD#4, 0xF#4] := by decide

theorem decodeAlu_isOfWord {w : Word} (ho : opOf w = 0x8) : (decodeAlu w).IsOfWord w := by
  unfold decodeAlu
  split
  case h_10 h0 h1 h2 h3 h4 h5 h6 h7 hE =>
    exact ignored_isOfWord ((ignoredWord_fields w).mpr
      (.inr (.inr (.inl ⟨ho, alu_unassigned_of_ne _ h0 h1 h2 h3 h4 h5 h6 h7 hE⟩))))
  all_goals
    next hn => exact ⟨rfl, formR_of_op_n ho (BitVec.eq_of_toNat_eq hn)⟩

theorem decodeKey_isOfWord {w : Word} (ho : opOf w = 0xE) : (decodeKey w).IsOfWord w := by
  unfold decodeKey
  split_ifs with hskp hsknp
  · exact ⟨rfl, formI_of_op_nn ho hskp⟩
  · exact ⟨rfl, formI_of_op_nn ho hsknp⟩
  · exact ignored_isOfWord ((ignoredWord_fields w).mpr (.inr (.inr (.inr (.inl ⟨ho, by simpa using ⟨hskp, hsknp⟩⟩)))))

theorem decodeMisc_isOfWord {w : Word} (ho : opOf w = 0xF) : (decodeMisc w).IsOfWord w := by
  unfold decodeMisc
  split_ifs
  case neg => exact ignored_isOfWord ((ignoredWord_fields w).mpr (.inr (.inr (.inr (.inr ⟨ho, by simp_all⟩)))))
  all_goals
    next hn => exact ⟨rfl, formI_of_op_nn ho hn⟩

/-- Every word is the encoding of the well-formed instruction it decodes to: by the family, the word's top nibble (R54). -/
theorem decode_isOfWord (w : Word) : (decode w).IsOfWord w := by
  unfold decode
  split <;> rename_i ho
  case h_1 => exact decodeZero_isOfWord (BitVec.eq_of_toNat_eq ho)
  case h_6 => exact decodeCompare_isOfWord (op := 0x5) (BitVec.eq_of_toNat_eq ho) (.inl rfl) fun _ _ => ⟨rfl, rfl⟩
  case h_9 => exact decodeAlu_isOfWord (BitVec.eq_of_toNat_eq ho)
  case h_10 => exact decodeCompare_isOfWord (op := 0x9) (BitVec.eq_of_toNat_eq ho) (.inr rfl) fun _ _ => ⟨rfl, rfl⟩
  case h_14 => exact ⟨rfl, formR_of_op (BitVec.eq_of_toNat_eq ho)⟩
  case h_15 => exact decodeKey_isOfWord (BitVec.eq_of_toNat_eq ho)
  case h_16 =>
    refine decodeMisc_isOfWord (BitVec.eq_of_toNat_eq (y := 0xF#4) ?_)
    simp only [imp_false] at *
    rw [BitVec.toNat_ofNat]
    omega
  case h_2 | h_3 | h_11 | h_12 => exact ⟨rfl, formA_of_op (BitVec.eq_of_toNat_eq ho)⟩
  case h_4 | h_5 | h_7 | h_8 | h_13 => exact ⟨rfl, formI_of_op (BitVec.eq_of_toNat_eq ho)⟩

/-! ## The word an instruction encodes to decodes to the instruction -/

/-- A word of R56's table decodes to an ignored encoding: in each of its five families no instruction's test is met. -/
theorem decode_of_ignoredWord {w : Word} (h : ignoredWord w = true) : decode w = .ignored w := by
  obtain ⟨ho, hcls, hret⟩ | ⟨ho | ho, hn⟩ | ⟨ho, hn⟩ | ⟨ho, hn⟩ | ⟨ho, hn⟩ := (ignoredWord_fields w).mp h
  · have hc : w ≠ 0x00E0#16 := fun hw => hcls (hw ▸ rfl)
    have hr : w ≠ 0x00EE#16 := fun hw => hret (hw ▸ rfl)
    simp [decode, ho, decodeZero, hc, hr]
  · simp [decode, ho, decodeCompare, hn]
  · simp [decode, ho, decodeCompare, hn]
  · simp only [List.mem_cons, List.not_mem_nil, or_false] at hn
    rcases hn with hn | hn | hn | hn | hn | hn | hn <;> simp [decode, ho, decodeAlu, hn]
  · simp only [List.mem_cons, List.not_mem_nil, or_false, not_or] at hn
    simp [decode, ho, decodeKey, hn]
  · simp only [List.mem_cons, List.not_mem_nil, or_false, not_or] at hn
    simp [decode, ho, decodeMisc, hn]

/-- A well-formed instruction is what its word decodes to: by its format, the fields that the decoder tests are those the
encoder wrote (R52, R54). -/
theorem decode_encode {i : Instr} (h : i.wellFormed = true) : decode (encode i) = i := by
  cases i with
  | cls | ret => rfl
  | jp _ | call _ | ldI _ | jpV0 _ => simp [encode, decode]
  | seImm _ _ | sneImm _ _ | ldImm _ _ | addImm _ _ | rnd _ _ => simp [encode, decode]
  | drw _ _ _ => simp [encode, decode]
  | seReg _ _ | sneReg _ _ => simp [encode, decode, decodeCompare]
  | ldReg _ _ | orReg _ _ | andReg _ _ | xorReg _ _ | addReg _ _ | subReg _ _ | shr _ _ | subnReg _ _ | shl _ _ =>
    simp [encode, decode, decodeAlu]
  | skp _ | sknp _ => simp [encode, decode, decodeKey]
  | ldVxDT _ | ldVxK _ | ldDTVx _ | ldSTVx _ | addI _ | ldF _ | ldB _ | storeRegs _ | loadRegs _ =>
    simp [encode, decode, decodeMisc]
  | ignored _ => exact decode_of_ignoredWord h

/-- The byte decoder on the two bytes of an instruction is the decoder on its word, with nothing left over (R34, R50). -/
theorem decodeBytes_encodeBytes (i : Instr) : decodeBytes (encodeBytes i) = .ok (decode (encode i), []) := by
  rw [encodeBytes, decodeBytes, wordOfBytes_bytes]

/-! ## Instructions and the rows of R55 -/

/-- The word of every well-formed instruction is covered by the row its pattern names and by no other (R55). -/
theorem covers_encode_iff {i : Instr} (h : i.wellFormed = true) {r : OpcodeRow} (hr : r ∈ opcodeRows) :
    r.covers (encode i) = true ↔ i.pattern = some r.pattern := by
  suffices hi : Laws.EncodeRow.Statement i from hi h r hr
  cases i with
  | cls => exact Laws.EncodeRow.cls
  | ret => exact Laws.EncodeRow.ret
  | jp nnn => exact Laws.EncodeRow.jp nnn
  | call nnn => exact Laws.EncodeRow.call nnn
  | seImm x nn => exact Laws.EncodeRow.seImm x nn
  | sneImm x nn => exact Laws.EncodeRow.sneImm x nn
  | seReg x y => exact Laws.EncodeRow.seReg x y
  | ldImm x nn => exact Laws.EncodeRow.ldImm x nn
  | addImm x nn => exact Laws.EncodeRow.addImm x nn
  | ldReg x y => exact Laws.EncodeRow.ldReg x y
  | orReg x y => exact Laws.EncodeRow.orReg x y
  | andReg x y => exact Laws.EncodeRow.andReg x y
  | xorReg x y => exact Laws.EncodeRow.xorReg x y
  | addReg x y => exact Laws.EncodeRow.addReg x y
  | subReg x y => exact Laws.EncodeRow.subReg x y
  | shr x y => exact Laws.EncodeRow.shr x y
  | subnReg x y => exact Laws.EncodeRow.subnReg x y
  | shl x y => exact Laws.EncodeRow.shl x y
  | sneReg x y => exact Laws.EncodeRow.sneReg x y
  | ldI nnn => exact Laws.EncodeRow.ldI nnn
  | jpV0 nnn => exact Laws.EncodeRow.jpV0 nnn
  | rnd x nn => exact Laws.EncodeRow.rnd x nn
  | drw x y n => exact Laws.EncodeRow.drw x y n
  | skp x => exact Laws.EncodeRow.skp x
  | sknp x => exact Laws.EncodeRow.sknp x
  | ldVxDT x => exact Laws.EncodeRow.ldVxDT x
  | ldVxK x => exact Laws.EncodeRow.ldVxK x
  | ldDTVx x => exact Laws.EncodeRow.ldDTVx x
  | ldSTVx x => exact Laws.EncodeRow.ldSTVx x
  | addI x => exact Laws.EncodeRow.addI x
  | ldF x => exact Laws.EncodeRow.ldF x
  | ldB x => exact Laws.EncodeRow.ldB x
  | storeRegs x => exact Laws.EncodeRow.storeRegs x
  | loadRegs x => exact Laws.EncodeRow.loadRegs x
  | ignored w => exact Laws.EncodeRow.ignored w

/-- A row covers a word exactly when its pattern names the instruction the word decodes to (R55). -/
theorem covers_iff_decode_pattern (w : Word) {r : OpcodeRow} (hr : r ∈ opcodeRows) :
    r.covers w = true ↔ (decode w).pattern = some r.pattern := by
  obtain ⟨hwf, henc⟩ := decode_isOfWord w
  have h := covers_encode_iff hwf hr
  rwa [henc] at h

/-- An instruction that is no ignored encoding is named by a row of R55 (R58). -/
theorem Instr.eq_ignored_or_pattern_mem (i : Instr) :
    (∃ w, i = .ignored w) ∨ ∃ r ∈ opcodeRows, i.pattern = some r.pattern := by
  cases i with
  | ignored w => exact .inl ⟨w, rfl⟩
  | _ => exact .inr (by simp [opcodeRows, opcodeRowsLow, opcodeRowsHigh, Instr.pattern])

/-- A word decodes to an ignored encoding exactly when it is in R56's table. -/
theorem decode_eq_ignored_iff (w : Word) : decode w = .ignored w ↔ ignoredWord w = true := by
  refine ⟨fun h => ?_, decode_of_ignoredWord⟩
  obtain ⟨hwf, -⟩ := decode_isOfWord w
  rwa [h] at hwf

/-- A word that no row covers decodes to an ignored encoding, which holds the word itself. -/
theorem decode_eq_ignored_of_uncovered {w : Word} (h : ∀ r ∈ opcodeRows, r.covers w = false) :
    decode w = .ignored w := by
  obtain ⟨v, hv⟩ | ⟨r, hr, hp⟩ := (decode w).eq_ignored_or_pattern_mem
  · obtain ⟨-, henc⟩ := decode_isOfWord w
    rw [hv] at henc
    obtain rfl : v = w := henc
    exact hv
  · exact absurd ((covers_iff_decode_pattern w hr).mpr hp) (by simp [h r hr])

end Sys2Proof
end

section
/-! The family of spec/30_encoding.md: the statements settled. -/

namespace Sys2Proof.EncodingFamily

/-- Settles O15: by the instruction's format on the word (`decode_encode`), and the two bytes put the word together again. -/
theorem decodeEncodeRoundTrip : Obligations.DecodeEncodeRoundTrip := by
  unfold Obligations.DecodeEncodeRoundTrip
  intro i h
  refine ⟨decode_encode h, ?_⟩
  rw [decodeBytes_encodeBytes, decode_encode h]

/-- Settles O16, by the word's family (`decode_isOfWord`). -/
theorem encodeDecodeRoundTrip : Obligations.EncodeDecodeRoundTrip := by
  unfold Obligations.EncodeDecodeRoundTrip
  exact decode_isOfWord

/-- Settles O17: a word is the encoding of the instruction it decodes to, and the row of an encoding is known per instruction. -/
theorem decoderFollowsTheOpcodeMap : Obligations.DecoderFollowsTheOpcodeMap := by
  unfold Obligations.DecoderFollowsTheOpcodeMap
  exact fun w r hr => covers_iff_decode_pattern w hr

/-- Settles O18: an ignored encoding has no pattern for a row to name, and every other instruction has a row's. -/
theorem ignoredWordsAreThoseNoRowCovers : Obligations.IgnoredWordsAreThoseNoRowCovers := by
  unfold Obligations.IgnoredWordsAreThoseNoRowCovers
  refine fun w => ⟨decode_eq_ignored_iff w, fun h r hr => ?_, fun h => ?_⟩
  · rw [← Bool.not_eq_true, covers_iff_decode_pattern w hr, decode_of_ignoredWord h]
    simp [Instr.pattern]
  · exact (decode_eq_ignored_iff w).mp (decode_eq_ignored_of_uncovered h)

/-- Settles O19: the decoder evaluates to the instruction on each of the nine words. -/
theorem sampleWordsDecode : Obligations.SampleWordsDecode := by
  unfold Obligations.SampleWordsDecode
  decide

end Sys2Proof.EncodingFamily
end

section
/-! SUPPORT. The step cycle: the bytes a fetch takes, what the byte decoder makes of them, and the frame of a jump. -/

namespace Sys2Proof.Machine

open Sys2Proof.Safety

/-- The fetched word is that of the bytes at `PC` and `(PC + 1) mod 4096` (R71). -/
theorem fetch_eq_wordOfBytes (s : State) :
    fetch s = wordOfBytes (s.memRead s.PC.toNat) (s.memRead ((s.PC.toNat + 1) % 4096)) := by
  rw [fetch, State.memRead_mod]

/-- What the byte decoder answers on the bytes at `PC` and `(PC + 1) mod 4096` is the decoded fetch, with nothing left over
(R70, R71). -/
theorem decodeBytes_fetched_eq_ok_iff {s : State} {i : Instr} {rest : List Byte} :
    decodeBytes [s.memRead s.PC.toNat, s.memRead ((s.PC.toNat + 1) % 4096)] = .ok (i, rest) ↔
      decode (fetch s) = i ∧ [] = rest := by
  rw [decodeBytes, ← fetch_eq_wordOfBytes, Except.ok.injEq, Prod.mk.injEq]

/-- A jump changes nothing but the program counter. -/
theorem State.onlyPC_jump (s : State) (a : Addr) : OnlyPC s (s.jump a) :=
  ⟨fun _ => rfl, rfl, fun _ => rfl, ⟨rfl, fun _ => rfl⟩, fun _ _ => rfl, ⟨rfl, rfl⟩, rfl, rfl, rfl⟩

/-- The default advance moves the program counter by 2 modulo 4096 (R73, R74). -/
theorem State.pcPlus_advance (s : State) : PCPlus 2 s s.advance := BitVec.toNat_add s.PC 2

end Sys2Proof.Machine
end

section
/-! The family of spec/40_step_cycle.md: the statements settled. -/

namespace Sys2Proof.StepCycleFamily

open Sys2Proof.Machine Sys2Proof.Safety

/-- Settles O8: every instruction ends in one jump to its entry of R73's table (`exec_eq_jump_effect`), and the width of `PC` is
the reduction modulo 4096. -/
theorem nextProgramCounterOfEveryInstruction : Obligations.NextProgramCounterOfEveryInstruction := by
  unfold Obligations.NextProgramCounterOfEveryInstruction
  intro i s
  refine ⟨_, exec_eq_jump_effect i s, ?_⟩
  rw [State.jump_PC, BitVec.toNat_ofNat]

/-- Settles O6: the two bytes are the fetched word's (`decodeBytes_fetched_eq_ok_iff`), and every word decodes to a well-formed
instruction (`decode_isOfWord`). -/
theorem stepRunsTheDecodedInstruction : Obligations.StepRunsTheDecodedInstruction := by
  unfold Obligations.StepRunsTheDecodedInstruction
  intro s i rest h
  obtain ⟨rfl, rfl⟩ := decodeBytes_fetched_eq_ok_iff.mp h
  obtain ⟨hwf, -⟩ := decode_isOfWord (fetch s)
  exact ⟨hwf, rfl, rfl⟩

/-- Settles O7: the fetched word's bytes (`fetch_eq_wordOfBytes`), the first the high one (`wordOfBytes_toNat`). -/
theorem fetchIsBigEndianAndWraps : Obligations.FetchIsBigEndianAndWraps := by
  unfold Obligations.FetchIsBigEndianAndWraps
  intro s
  rw [fetch_eq_wordOfBytes, wordOfBytes_toNat]

/-- Settles O31: a word of R56's table meets no instruction's test (`decode_of_ignoredWord`), and the meaning of an ignored
encoding is the default advance. -/
theorem ignoredEncodingOnlyAdvances : Obligations.IgnoredEncodingOnlyAdvances := by
  unfold Obligations.IgnoredEncodingOnlyAdvances
  exact fun w s => ⟨decode_of_ignoredWord, s.advance, rfl, s.pcPlus_advance, s.onlyPC_jump _⟩

end Sys2Proof.StepCycleFamily
end

section
/-! SUPPORT. Control flow: the frame and the move of a skip, the words of the comparing families, and a push seen by a pop. -/

namespace Sys2Proof

/-- A word of family 5 or 9 with a nonzero low nibble decodes to an ignored encoding (R56, R85, R86). -/
theorem decode_formR_compare_of_ne {op n : Nibble} (hop : op = 5#4 ∨ op = 9#4) (hn : n ≠ 0) (x y : Nibble) :
    decode (formR op x y n) = .ignored (formR op x y n) := by
  refine decode_of_ignoredWord ((ignoredWord_fields _).mpr (.inr (.inl ?_)))
  rw [opOf_formR, nOf_formR]
  exact ⟨hop, hn⟩

end Sys2Proof

namespace Sys2Proof.Machine

open Sys2Proof.Safety

/-! ## Skips -/

/-- A skip changes nothing but the program counter (R76). -/
theorem State.onlyPC_skipIf (s : State) (c : Bool) : OnlyPC s (s.skipIf c) := by
  rw [State.skipIf_eq_jump]
  exact s.onlyPC_jump _

/-- A skip on the test of `c` moves the program counter by 4 exactly when `c` holds, else by 2 (R76, R74). -/
theorem State.pcSkips_skipIf (s : State) (c : Prop) [Decidable c] : PCSkips c s (s.skipIf (decide c)) := by
  rw [State.skipIf_eq_jump]
  constructor <;> intro hc
  · rw [decide_eq_true hc]
    exact BitVec.toNat_add s.PC 4
  · rw [decide_eq_false hc]
    exact BitVec.toNat_add s.PC 2

/-! ## What a push and a pop do to the stack, and their frames -/

/-- A push on a full stack is dropped (R16). -/
theorem State.push_of_full {s : State} (h : s.SP.val = 16) (a : Addr) : s.push a = s := by
  rcases s.push_cases a with ⟨-, hpush⟩ | ⟨hlt, -⟩
  · exact hpush
  · omega

/-- A push on a stack that is not full counts one entry more (R16). -/
theorem State.SP_push_of_lt {s : State} (h : s.SP.val < 16) (a : Addr) : (s.push a).SP.val = s.SP.val + 1 := by
  rw [State.SP_push]
  omega

theorem State.onlyStack_push (s : State) (a : Addr) : OnlyStack s (s.push a) := by
  rcases s.push_cases a with ⟨-, hpush⟩ | ⟨_, hpush⟩ <;> rw [hpush] <;>
    exact ⟨fun _ => rfl, rfl, fun _ => rfl, fun _ _ => rfl, ⟨rfl, rfl⟩, rfl, rfl, rfl⟩

theorem State.onlyStack_pop (s : State) : OnlyStack s s.pop :=
  ⟨fun _ => rfl, rfl, fun _ => rfl, fun _ _ => rfl, ⟨rfl, rfl⟩, rfl, rfl, rfl⟩

/-! ## A pop after a push -/

/-- What is popped after a push on a stack that is not full is what was pushed (R16, R17). -/
theorem State.top_push {s : State} (h : s.SP.val < 16) (a : Addr) : (s.push a).top = a := by
  have hk : (BitVec.ofNat 4 ((s.push a).SP.val - 1)).toNat = s.SP.val := by
    rw [State.SP_push_of_lt h, BitVec.toNat_ofNat]
    omega
  rw [State.top_eq_slot, State.slot_push, if_pos hk]

/-- A pop after a push on a stack that is not full restores the depth (R16, R17). -/
theorem State.SP_pop_push {s : State} (h : s.SP.val < 16) (a : Addr) : (s.push a).pop.SP = s.SP :=
  Fin.ext (by simp [State.SP_push_of_lt h])

end Sys2Proof.Machine

namespace Sys2Proof.Safety

open Sys2Proof.Machine

/-- The frame of a stack operation leaves the program counter open, so a jump after it stays within the frame. -/
theorem OnlyStack.jump {s t : State} (h : OnlyStack s t) (a : Addr) : OnlyStack s (t.jump a) := h

/-- States with the same stack pop the same value. -/
theorem SameStack.top_eq {s t : State} (h : SameStack s t) : t.top = s.top := by
  obtain ⟨hSP, hslot⟩ := h
  rw [State.top_eq_slot, State.top_eq_slot, hSP, hslot]

/-- States with the same stack have the same depth after a pop. -/
theorem SameStack.SP_pop_eq {s t : State} (h : SameStack s t) : t.pop.SP = s.pop.SP := by
  obtain ⟨hSP, -⟩ := h
  simp [hSP]

end Sys2Proof.Safety
end

section
/-! The family of spec/41_control_flow.md: the statements settled. -/

namespace Sys2Proof.ControlFlowFamily

open Sys2Proof.Machine Sys2Proof.Safety

/-- Settles O27: a later state with the same stack pops what the call pushed, its own address (`State.top_push`), and is back at
the call's depth (`State.SP_pop_push`). -/
theorem callThenReturnRoundTrip : Obligations.CallThenReturnRoundTrip := by
  unfold Obligations.CallThenReturnRoundTrip
  intro nnn s hlt
  refine ⟨(s.push s.PC).jump nnn, rfl, fun v hv => ⟨v.pop.jump (v.top + 2), rfl, ?_, ?_⟩⟩
  · have htop : v.top = s.PC := hv.top_eq.trans (State.top_push hlt s.PC)
    rw [htop]
    exact BitVec.toNat_add s.PC 2
  · exact hv.SP_pop_eq.trans (State.SP_pop_push hlt s.PC)

/-- Settles O23: the popped value is the slot `SP - 1`, or slot 0 (`State.top_eq_slot`), and the width of `PC` is the reduction
modulo 4096. -/
theorem returnGoesTwoPastThePoppedAddress : Obligations.ReturnGoesTwoPastThePoppedAddress := by
  unfold Obligations.ReturnGoesTwoPastThePoppedAddress
  intro s
  refine ⟨s.pop.jump (s.top + 2), rfl, rfl, fun _ => rfl, ?_, s.onlyStack_pop.jump _⟩
  rw [State.top_eq_slot]
  exact BitVec.toNat_add _ 2

/-- Settles O24: the jump is all there is (`State.onlyPC_jump`), and one to the present `PC` puts back what was there. -/
theorem jumpSetsOnlyTheProgramCounter : Obligations.JumpSetsOnlyTheProgramCounter := by
  unfold Obligations.JumpSetsOnlyTheProgramCounter
  intro nnn s
  refine ⟨decode_encode (i := .jp nnn) rfl, s.jump nnn, rfl, rfl, s.onlyPC_jump nnn, ?_⟩
  rintro rfl
  rfl

/-- Settles O25: on a stack that is not full by `State.SP_push_of_lt` and `State.slot_push`, on a full one by
`State.push_of_full`; the jump follows in either case. -/
theorem callPushesItsOwnAddress : Obligations.CallPushesItsOwnAddress := by
  unfold Obligations.CallPushesItsOwnAddress
  intro nnn s
  refine ⟨(s.push s.PC).jump nnn, rfl, rfl, (s.onlyStack_push s.PC).jump nnn,
    fun hlt => ⟨State.SP_push_of_lt hlt s.PC, s.slot_push s.PC⟩, fun hfull => ?_⟩
  rw [State.push_of_full hfull]
  exact ⟨rfl, fun _ => rfl⟩

/-- Settles O28: each is the skip on its own comparison (`State.pcSkips_skipIf`, `State.onlyPC_skipIf`). -/
theorem skipsComparingWithAnImmediate : Obligations.SkipsComparingWithAnImmediate := by
  unfold Obligations.SkipsComparingWithAnImmediate
  exact fun x nn s => ⟨decode_encode (i := .seImm x nn) rfl, decode_encode (i := .sneImm x nn) rfl,
    ⟨_, rfl, s.pcSkips_skipIf (s.reg x = nn), s.onlyPC_skipIf _⟩,
    ⟨_, rfl, s.pcSkips_skipIf (s.reg x ≠ nn), s.onlyPC_skipIf _⟩⟩

/-- Settles O29: each is the skip on its own comparison, and a nonzero low nibble is no instruction's
(`decode_formR_compare_of_ne`). -/
theorem skipsComparingTwoRegisters : Obligations.SkipsComparingTwoRegisters := by
  unfold Obligations.SkipsComparingTwoRegisters
  exact fun x y s => ⟨decode_encode (i := .seReg x y) rfl, decode_encode (i := .sneReg x y) rfl,
    fun n hn => ⟨decode_formR_compare_of_ne (.inl rfl) hn x y, decode_formR_compare_of_ne (.inr rfl) hn x y⟩,
    ⟨_, rfl, s.pcSkips_skipIf (s.reg x = s.reg y), s.onlyPC_skipIf _⟩,
    ⟨_, rfl, s.pcSkips_skipIf (s.reg x ≠ s.reg y), s.onlyPC_skipIf _⟩⟩

/-- Settles O30: the target is the unreduced sum put into 12 bits, which is its value modulo 4096. -/
theorem indexedJumpAddsV0 : Obligations.IndexedJumpAddsV0 := by
  unfold Obligations.IndexedJumpAddsV0
  exact fun nnn s => ⟨decode_encode (i := .jpV0 nnn) rfl, s.jump (indexedTarget (s.reg 0) nnn), rfl,
    BitVec.toNat_ofNat _ 12, s.onlyPC_jump _⟩

end Sys2Proof.ControlFlowFamily
end

section
/-! SUPPORT. Register results: what the write of a destination, and of a result and its flag, changes and leaves unchanged,
and the results and flags of the arithmetic in numbers. -/

namespace Sys2Proof.Safety

open Sys2Proof.Machine

/-- The frame of a register write leaves the program counter open, so a jump after it stays within the frame. -/
theorem OnlyRegs.jump {s t : State} (h : OnlyRegs s t) (a : Addr) : OnlyRegs s (t.jump a) := h

end Sys2Proof.Safety

namespace Sys2Proof.Machine

open Sys2Proof.Safety

/-! ## A result without a flag -/

theorem State.reg_writeReg_self (s : State) (x : Nibble) (b : Byte) : (s.writeReg x b).reg x = b := by
  rw [State.reg_writeReg, if_pos rfl]

theorem State.reg_writeReg_of_ne {x r : Nibble} (h : r ≠ x) (s : State) (b : Byte) :
    (s.writeReg x b).reg r = s.reg r := by
  rw [State.reg_writeReg, if_neg h]

theorem State.onlyRegs_writeReg (s : State) (x : Nibble) (b : Byte) : OnlyRegs s (s.writeReg x b) :=
  ⟨rfl, fun _ => rfl, ⟨rfl, fun _ => rfl⟩, fun _ _ => rfl, ⟨rfl, rfl⟩, rfl, rfl, rfl⟩

/-- The program counter and the frame of an instruction that writes `Vx` alone (R73, R74). -/
theorem State.pcPlus_onlyRegs_advance_writeReg (s : State) (x : Nibble) (b : Byte) :
    PCPlus 2 s (s.writeReg x b).advance ∧ OnlyRegs s (s.writeReg x b).advance :=
  ⟨(s.writeReg x b).pcPlus_advance, (s.onlyRegs_writeReg x b).jump _⟩

/-- An instruction that writes `Vx` alone leaves the other registers, `VF` among them, and all else but `PC` (D7). -/
theorem State.frame_advance_writeReg (s : State) (x : Nibble) (b : Byte) :
    (∀ r, r ≠ x → (s.writeReg x b).advance.reg r = s.reg r) ∧ PCPlus 2 s (s.writeReg x b).advance ∧
      OnlyRegs s (s.writeReg x b).advance :=
  ⟨fun _ hr => State.reg_writeReg_of_ne hr s b, s.pcPlus_onlyRegs_advance_writeReg x b⟩

/-! ## A result and its flag -/

theorem State.onlyRegs_writeResultFlag (s : State) (x : Nibble) (v : Byte) (c : Bool) :
    OnlyRegs s (s.writeResultFlag x v c) :=
  ⟨rfl, fun _ => rfl, ⟨rfl, fun _ => rfl⟩, fun _ _ => rfl, ⟨rfl, rfl⟩, rfl, rfl, rfl⟩

/-- A result of value `n` and the flag of `p`, the flag written last (R77(c), D4). -/
theorem State.resultAndFlag_writeResultFlag (s : State) (x : Nibble) {v : Byte} {n : Nat} {c : Bool} {p : Prop}
    (hv : v.toNat = n) (hc : c = true ↔ p) : ResultAndFlag s (s.writeResultFlag x v c).advance x n p := by
  refine ⟨fun hx => ?_, fun hp => ?_, fun hp => ?_, fun r hx hf => ?_, (s.writeResultFlag x v c).pcPlus_advance,
    (s.onlyRegs_writeResultFlag x v c).jump _⟩ <;>
    rw [State.advance_reg, State.reg_writeResultFlag]
  · rw [if_neg hx, if_pos rfl, hv]
  · rw [if_pos rfl, hc.mpr hp]
    rfl
  · rw [if_pos rfl, Bool.eq_false_iff.mpr (mt hc.mp hp)]
    rfl
  · rw [if_neg hf, if_neg hx]

/-! ## Results and flags in numbers -/

theorem carryOut_eq_true_iff (a b : Byte) : carryOut a b = true ↔ a.toNat + b.toNat > 255 := decide_eq_true_iff

theorem strictlyGreater_eq_true_iff (a b : Byte) : strictlyGreater a b = true ↔ a.toNat > b.toNat := decide_eq_true_iff

/-- The bit a right shift drops is the remainder of the halving (R98). -/
theorem bitShiftedRight_eq_true_iff (a : Byte) : bitShiftedRight a = true ↔ a.toNat % 2 = 1 := by
  rw [bitShiftedRight, BitVec.getLsbD, Nat.testBit_zero, decide_eq_true_iff]

/-- The bit a left shift drops is bit 7 (R100). -/
theorem bitShiftedLeft_eq_true_iff (a : Byte) : bitShiftedLeft a = true ↔ a.toNat / 128 % 2 = 1 := by
  rw [bitShiftedLeft, BitVec.getLsbD, Nat.testBit_eq_decide_div_mod_eq, decide_eq_true_iff]

/-- A difference modulo 256 (R97, R99). -/
theorem toNat_sub_byte (a b : Byte) : (a - b).toNat = (a.toNat + 256 - b.toNat) % 256 := by
  rw [BitVec.toNat_sub]
  omega

theorem toNat_ushiftRight_one_byte (a : Byte) : (a >>> 1).toNat = a.toNat / 2 := by
  rw [BitVec.toNat_ushiftRight, Nat.shiftRight_one]

theorem toNat_shiftLeft_one_byte (a : Byte) : (a <<< 1).toNat = a.toNat * 2 % 256 := by
  rw [BitVec.toNat_shiftLeft, Nat.shiftLeft_eq, pow_one]

/-- A value within a mask is unchanged by it. -/
theorem and_eq_of_and_not_eq_zero {w : Nat} {mask v : BitVec w} (h : v &&& ~~~mask = 0#w) : mask &&& v = v :=
  calc mask &&& v = (v &&& mask) ||| (v &&& ~~~mask) := by rw [h, BitVec.or_zero, BitVec.and_comm]
    _ = v &&& (mask ||| ~~~mask) := BitVec.and_or_distrib_left.symm
    _ = v := by rw [BitVec.or_not_self, BitVec.and_allOnes]

end Sys2Proof.Machine
end

section
/-! The family of spec/42_alu.md: the statements settled. -/

namespace Sys2Proof.AluFamily

open Sys2Proof.Machine Sys2Proof.Safety

/-- Settles O32: the write of the destination (`State.reg_writeReg`), whatever `x` is, and its frame. -/
theorem loadImmediateWritesTheByte : Obligations.LoadImmediateWritesTheByte := by
  unfold Obligations.LoadImmediateWritesTheByte
  exact fun x nn s => ⟨decode_encode (i := .ldImm x nn) rfl, _, rfl, fun r => s.reg_writeReg x r nn,
    s.pcPlus_onlyRegs_advance_writeReg x nn⟩

/-- Settles O33: the width of the sum is the reduction modulo 256, and no register but the destination is written. -/
theorem addImmediateWrapsWithoutFlag : Obligations.AddImmediateWrapsWithoutFlag := by
  unfold Obligations.AddImmediateWrapsWithoutFlag
  intro x nn s
  refine ⟨(s.writeReg x (s.reg x + nn)).advance, rfl, ?_, s.frame_advance_writeReg x _⟩
  rw [State.advance_reg, State.reg_writeReg_self, BitVec.toNat_add]

/-- Settles O34: as `loadImmediateWritesTheByte`, with the source's byte. -/
theorem registerCopyWritesTheSource : Obligations.RegisterCopyWritesTheSource := by
  unfold Obligations.RegisterCopyWritesTheSource
  exact fun x y s => ⟨decode_encode (i := .ldReg x y) rfl, _, rfl, fun r => s.reg_writeReg x r (s.reg y),
    s.pcPlus_onlyRegs_advance_writeReg x _⟩

/-- Settles O35: each result is the operation on bytes, which acts on every bit alone, and each frame is that of the write of
one register. -/
theorem logicOperationsWriteNoFlag : Obligations.LogicOperationsWriteNoFlag := by
  unfold Obligations.LogicOperationsWriteNoFlag
  intro x y s
  refine ⟨⟨(s.writeReg x (s.reg x ||| s.reg y)).advance, rfl, fun k => ?_, s.frame_advance_writeReg x _⟩,
    ⟨(s.writeReg x (s.reg x &&& s.reg y)).advance, rfl, fun k => ?_, s.frame_advance_writeReg x _⟩,
    ⟨(s.writeReg x (s.reg x ^^^ s.reg y)).advance, rfl, fun k => ?_, s.frame_advance_writeReg x _⟩⟩ <;>
    rw [State.advance_reg, State.reg_writeReg_self]
  · exact BitVec.getLsbD_or
  · exact BitVec.getLsbD_and
  · exact BitVec.getLsbD_xor

/-- Settles O36: the sum modulo 256, then the carry, with `State.resultAndFlag_writeResultFlag` for the order of the two. -/
theorem addSetsCarry : Obligations.AddSetsCarry := by
  unfold Obligations.AddSetsCarry
  exact fun x y s => ⟨_, rfl, s.resultAndFlag_writeResultFlag x (BitVec.toNat_add _ _) (carryOut_eq_true_iff _ _)⟩

/-- Settles O37: both are one difference (`toNat_sub_byte`) and one comparison, with the operands exchanged. -/
theorem subtractionsSetStrictlyGreater : Obligations.SubtractionsSetStrictlyGreater := by
  unfold Obligations.SubtractionsSetStrictlyGreater
  exact fun x y s =>
    ⟨⟨_, rfl, s.resultAndFlag_writeResultFlag x (toNat_sub_byte _ _) (strictlyGreater_eq_true_iff _ _)⟩,
      ⟨_, rfl, s.resultAndFlag_writeResultFlag x (toNat_sub_byte _ _) (strictlyGreater_eq_true_iff _ _)⟩⟩

/-- Settles O38: halving with its remainder, doubling modulo 256 with bit 7, both of the old `Vx`. -/
theorem shiftsSetTheBitShiftedOut : Obligations.ShiftsSetTheBitShiftedOut := by
  unfold Obligations.ShiftsSetTheBitShiftedOut
  exact fun x y s =>
    ⟨⟨_, rfl, s.resultAndFlag_writeResultFlag x (toNat_ushiftRight_one_byte _) (bitShiftedRight_eq_true_iff _)⟩,
      ⟨_, rfl, s.resultAndFlag_writeResultFlag x (toNat_shiftLeft_one_byte _) (bitShiftedLeft_eq_true_iff _)⟩⟩

/-- Settles O39: the masked byte is written and the port emptied; a value within the mask comes from itself as the random byte
(`and_eq_of_and_not_eq_zero`). -/
theorem randomByteIsMaskedAndConsumed : Obligations.RandomByteIsMaskedAndConsumed := by
  unfold Obligations.RandomByteIsMaskedAndConsumed
  intro x nn s
  obtain ⟨hI, hmem, hstack, hfb, htimers, hkeys, -⟩ := s.onlyRegs_writeReg x (nn &&& s.randomByte)
  refine ⟨⟨(s.writeReg x (nn &&& s.randomByte)).consumeRandom.advance, rfl, s.reg_writeReg_self x _,
    fun r hr => State.reg_writeReg_of_ne hr s _, rfl, rfl, hkeys, hI, hmem, hstack, hfb, htimers,
    State.pcPlus_advance _⟩, fun keys v hv => ?_⟩
  refine ⟨v, ((s.present keys v).writeReg x (nn &&& v)).consumeRandom.advance, rfl, ?_⟩
  rw [State.advance_reg, State.consumeRandom_reg, State.reg_writeReg_self, and_eq_of_and_not_eq_zero hv]

end Sys2Proof.AluFamily
end

section
/-! SUPPORT. The index register and memory operands: the frames of what they write, addresses and decimal digits in numbers, and
a register block in memory. -/

namespace Sys2Proof.Safety

open Sys2Proof.Machine

theorem onlyMemory_withMemory (s : State) (m : Memory) : OnlyMemory s { s with memory := m } :=
  ⟨fun _ => rfl, rfl, ⟨rfl, fun _ => rfl⟩, fun _ _ => rfl, ⟨rfl, rfl⟩, rfl, rfl, rfl⟩

/-- The frame of a memory write leaves the program counter open, so a jump after it stays within the frame. -/
theorem OnlyMemory.jump {s t : State} (h : OnlyMemory s t) (a : Addr) : OnlyMemory s (t.jump a) := h

end Sys2Proof.Safety

namespace Sys2Proof.Machine

open Sys2Proof.Safety

/-! ## The program counter -/

/-- The advance of an instruction whose writes left `PC` moves it by 2 (R73, R74). -/
theorem State.pcPlus_advance_of_PC_eq {s t : State} (h : t.PC = s.PC) : PCPlus 2 s t.advance := by
  rw [PCPlus, ← h]
  exact t.pcPlus_advance

/-! ## The index register -/

/-- The program counter and the frame of an instruction that writes `I` alone, `VF` among what stays (R73, R74, D7). -/
theorem State.pcPlus_onlyIndex_advance_writeI (s : State) (a : Addr) :
    PCPlus 2 s (s.writeI a).advance ∧ OnlyIndex s (s.writeI a).advance :=
  ⟨(s.writeI a).pcPlus_advance, fun _ => rfl, fun _ => rfl, ⟨rfl, fun _ => rfl⟩, fun _ _ => rfl, ⟨rfl, rfl⟩,
    rfl, rfl, rfl⟩

theorem indexPlus_toNat (i : Addr) (v : Byte) : (indexPlus i v).toNat = (i.toNat + v.toNat) % 4096 :=
  BitVec.toNat_ofNat _ 12

/-- Five times the greatest byte is below 4096, so a glyph's address does not wrap (R112, D23). -/
theorem glyphAddr_toNat (v : Byte) : (glyphAddr v).toNat = v.toNat * 5 := by
  rw [glyphAddr, Config.glyphStride, BitVec.toNat_ofNat]
  omega

/-! ## The decimal digits of a byte -/

theorem hundreds_toNat (v : Byte) : (hundreds v).toNat = v.toNat / 100 := by
  rw [hundreds, BitVec.toNat_ofNat]
  omega

theorem tens_toNat (v : Byte) : (tens v).toNat = v.toNat / 10 % 10 := by
  rw [tens, BitVec.toNat_ofNat]
  omega

theorem ones_toNat (v : Byte) : (ones v).toNat = v.toNat % 10 := by
  rw [ones, BitVec.toNat_ofNat]
  omega

/-! ## Writes at an effective address -/

/-- A write at `(I + k) mod 4096` is read at the addresses that are `I + k` modulo 4096, and no others (R31). -/
theorem State.memRead_memWrite_effective (s t : State) (k a : Nat) (b : Byte) :
    (t.memWrite (s.effective k) b).memRead a = if a % 4096 = (s.I.toNat + k) % 4096 then b else t.memRead a := by
  rw [State.memRead_memWrite, State.effective, Config.memSize, Nat.mod_mod]

theorem State.memRead_memWrite_effective_self (s t : State) (k : Nat) (b : Byte) :
    (t.memWrite (s.effective k) b).memRead (s.I.toNat + k) = b := by
  rw [State.memRead_memWrite_effective, if_pos rfl]

theorem State.memRead_memWrite_effective_of_ne (s t : State) {k a : Nat} (h : a % 4096 ≠ (s.I.toNat + k) % 4096) (b : Byte) :
    (t.memWrite (s.effective k) b).memRead a = t.memRead a := by
  rw [State.memRead_memWrite_effective, if_neg h]

/-! ## A register block in memory -/

theorem State.onlyMemory_storeBlock (s : State) (n : Nat) : OnlyMemory s (s.storeBlock n) := by
  rw [State.storeBlock_frame]
  exact onlyMemory_withMemory s _

theorem State.onlyRegs_loadBlock (s : State) (n : Nat) : OnlyRegs s (s.loadBlock n) := by
  rw [State.loadBlock_frame]
  exact ⟨rfl, fun _ => rfl, ⟨rfl, fun _ => rfl⟩, fun _ _ => rfl, ⟨rfl, rfl⟩, rfl, rfl, rfl⟩

/-- The registers that a store of `V0` to `Vx` names, each where it was put (R114). -/
theorem State.storeBlock_memRead_of_le (s : State) {x r : Nibble} (h : r.toNat ≤ x.toNat) :
    (s.storeBlock (x.toNat + 1)).memRead (s.I.toNat + r.toNat) = s.reg r := by
  rw [s.storeBlock_memRead_at x.isLt (Nat.lt_succ_of_le h), BitVec.ofNat_toNat, BitVec.setWidth_eq]

/-- The registers after a load of `V0` to `Vx` (R115). -/
theorem State.reg_loadBlock_succ (s : State) (x r : Nibble) : (s.loadBlock (x.toNat + 1)).reg r =
    if r.toNat ≤ x.toNat then s.memRead (s.I.toNat + r.toNat) else s.reg r := by
  simp only [s.reg_loadBlock x.isLt r, Nat.lt_succ_iff]

end Sys2Proof.Machine
end

section
/-! The family of spec/43_index_memory.md: the statements settled. -/

namespace Sys2Proof.IndexMemoryFamily

open Sys2Proof.Machine Sys2Proof.Safety

/-- Settles O46: the store leaves `I`, so the load reads each register where the store put it, whatever else `v` holds. -/
theorem storeThenLoadRestoresRegisters : Obligations.StoreThenLoadRestoresRegisters := by
  unfold Obligations.StoreThenLoadRestoresRegisters
  intro x s
  refine ⟨(s.storeBlock (x.toNat + 1)).advance, rfl, fun v hmem hI =>
    ⟨(v.loadBlock (x.toNat + 1)).advance, rfl, fun r hr => ?_⟩⟩
  have hvI : v.I = s.I := hI.trans (s.storeBlock_I _)
  calc (v.loadBlock (x.toNat + 1)).advance.reg r
      = v.memRead (s.I.toNat + r.toNat) := by rw [State.advance_reg, State.reg_loadBlock_succ, if_pos hr, hvI]
    _ = (s.storeBlock (x.toNat + 1)).memRead (s.I.toNat + r.toNat) := hmem _
    _ = s.reg r := s.storeBlock_memRead_of_le hr

/-- Settles O40: the write of `I` and its frame. -/
theorem loadIndexWritesTheAddress : Obligations.LoadIndexWritesTheAddress := by
  unfold Obligations.LoadIndexWritesTheAddress
  exact fun nnn s => ⟨decode_encode (i := .ldI nnn) rfl, _, rfl, rfl, s.pcPlus_onlyIndex_advance_writeI nnn⟩

/-- Settles O41: the width of `I` is the reduction modulo 4096, and no register is written. -/
theorem addToIndexWrapsWithoutFlag : Obligations.AddToIndexWrapsWithoutFlag := by
  unfold Obligations.AddToIndexWrapsWithoutFlag
  exact fun x s => ⟨_, rfl, indexPlus_toNat s.I (s.reg x), s.pcPlus_onlyIndex_advance_writeI _⟩

/-- Settles O42: the product of the whole byte fits `I` (`glyphAddr_toNat`). -/
theorem glyphAddressIsFiveTimesTheByte : Obligations.GlyphAddressIsFiveTimesTheByte := by
  unfold Obligations.GlyphAddressIsFiveTimesTheByte
  exact fun x s => ⟨_, rfl, glyphAddr_toNat (s.reg x), s.pcPlus_onlyIndex_advance_writeI _⟩

/-- Settles O43: `I`, `I + 1` and `I + 2` differ modulo 4096, so no digit is written over, and a byte at none of them is left by
each of the three writes. -/
theorem bcdDigitsAreStored : Obligations.BcdDigitsAreStored := by
  unfold Obligations.BcdDigitsAreStored
  intro x s
  have h01 : (s.I.toNat + 0) % 4096 ≠ (s.I.toNat + 1) % 4096 := by omega
  have h02 : (s.I.toNat + 0) % 4096 ≠ (s.I.toNat + 2) % 4096 := by omega
  have h12 : (s.I.toNat + 1) % 4096 ≠ (s.I.toNat + 2) % 4096 := by omega
  refine ⟨_, rfl, State.pcPlus_advance _, (onlyMemory_withMemory s _).jump _, ?_, ?_, ?_, fun a ha => ?_⟩ <;>
    rw [State.advance_memRead]
  · rw [s.memRead_memWrite_effective_of_ne _ h02, s.memRead_memWrite_effective_of_ne _ h01,
      s.memRead_memWrite_effective_self, hundreds_toNat]
  · rw [s.memRead_memWrite_effective_of_ne _ h12, s.memRead_memWrite_effective_self, tens_toNat]
  · rw [s.memRead_memWrite_effective_self, ones_toNat]
  · rw [s.memRead_memWrite_effective_of_ne _ (ha 2 (by decide)), s.memRead_memWrite_effective_of_ne _ (ha 1 (by decide)),
      s.memRead_memWrite_effective_of_ne _ (ha 0 (by decide))]

/-- Settles O44: each register named is where it was put, and every address away from the block reads as before. -/
theorem registerBlockIsStored : Obligations.RegisterBlockIsStored := by
  unfold Obligations.RegisterBlockIsStored
  exact fun x s => ⟨_, rfl, State.pcPlus_advance_of_PC_eq (s.storeBlock_PC _),
    (s.onlyMemory_storeBlock _).jump _, fun _ hr => s.storeBlock_memRead_of_le hr,
    fun _ ha => s.storeBlock_memRead_away fun k hk => ha k (Nat.le_of_lt_succ hk)⟩

/-- Settles O45: the registers after the load (`State.reg_loadBlock_succ`), and its frame. -/
theorem registerBlockIsLoaded : Obligations.RegisterBlockIsLoaded := by
  unfold Obligations.RegisterBlockIsLoaded
  exact fun x s => ⟨_, rfl, State.pcPlus_advance_of_PC_eq (s.loadBlock_PC _), (s.onlyRegs_loadBlock _).jump _,
    s.reg_loadBlock_succ x⟩

end Sys2Proof.IndexMemoryFamily
end

section
/-! SUPPORT. The display: the cells a sprite has a set bit for, through the address generator, and what they depend on. -/

namespace Sys2Proof.Machine

open Sys2Proof.Safety

/-! ## The framebuffer address generator -/

/-- The linear address of a cell in numbers (R120, D16). -/
theorem linearCell_toNat (px : BitVec 6) (py : BitVec 5) : (linearCell px py).toNat = py.toNat * 64 + px.toNat := by
  rw [linearCell, BitVec.toNat_append, ← Nat.shiftLeft_add_eq_or_of_lt px.isLt, Nat.shiftLeft_eq]

/-- Cells with one linear address are one cell: both coordinates are read back from it. -/
theorem linearCell_inj {px qx : BitVec 6} {py qy : BitVec 5} (h : linearCell px py = linearCell qx qy) :
    px = qx ∧ py = qy := by
  have h := congrArg BitVec.toNat h
  rw [linearCell_toNat, linearCell_toNat] at h
  constructor <;> apply BitVec.eq_of_toNat_eq <;> omega

theorem eq_columnOf_iff (ox : Byte) (c : Nat) (px : BitVec 6) : px = columnOf ox c ↔ px.toNat = (ox.toNat + c) % 64 := by
  rw [← columnOf_toNat, BitVec.toNat_inj]

theorem eq_rowOf_iff (oy : Byte) (r : Nat) (py : BitVec 5) : py = rowOf oy r ↔ py.toNat = (oy.toNat + r) % 32 := by
  rw [← rowOf_toNat, BitVec.toNat_inj]

/-! ## The cells of a sprite -/

/-- The sprite's bit for a cell, said through the address generator and the effective address (R120, R31). -/
theorem spriteBit_iff (s : State) (ox oy : Byte) (n : Nat) (px : BitVec 6) (py : BitVec 5) :
    spriteBit s ox oy n px py ↔ ∃ r c, r < n ∧ c < 8 ∧ (s.memRead (s.effective r)).getLsbD (7 - c) = true ∧
      px = columnOf ox c ∧ py = rowOf oy r := by
  have hread (r : Nat) : s.memRead (s.effective r) = s.memRead (s.I.toNat + r) := s.memRead_mod _
  refine exists_congr fun r => exists_congr fun c => ?_
  rw [eq_columnOf_iff, eq_rowOf_iff, hread]
  exact and_congr_right fun _ => and_congr_right fun _ => and_rotate.symm

/-- Drawing inverts exactly the cells the sprite has a set bit for; a height of 4 bits is below the screen's 32 rows (R122). -/
theorem drawSprite_flips_spriteBit (s : State) (ox oy : Byte) (n : Nibble) :
    Flips (spriteBit s ox oy n.toNat) (s.fb, false) (drawSprite s ox oy n.toNat) := by
  have hn : n.toNat ≤ 32 := by omega
  exact (drawSprite_flips s ox oy hn).congr fun px py => (spriteBit_iff s ox oy n.toNat px py).symm

/-- The collision starts clear, so it is set exactly when a cell of the sprite was on (R122). -/
theorem drawSprite_collision_iff (s : State) (ox oy : Byte) (n : Nibble) : (drawSprite s ox oy n.toNat).2 = true ↔
    ∃ px py, spriteBit s ox oy n.toNat px py ∧ s.pixel px py = true := by
  obtain ⟨-, hflag⟩ := drawSprite_flips_spriteBit s ox oy n
  exact hflag.trans (or_iff_right Bool.false_ne_true)

/-- The sprite is read from memory at `I`, so states that agree on these have the same sprite. -/
theorem spriteBit_congr {s t : State} (hmem : SameMemory s t) (hI : t.I = s.I) (ox oy : Byte) (n : Nat) (px : BitVec 6)
    (py : BitVec 5) : spriteBit t ox oy n px py ↔ spriteBit s ox oy n px py := by
  have hread (r : Nat) : t.memRead (t.I.toNat + r) = s.memRead (s.I.toNat + r) := by rw [hI, hmem]
  simp only [spriteBit, hread]

/-- `DXYN` of one row or more: the sprite drawn, the flag written, the default advance (R122, D4). -/
theorem exec_drw_rows (s : State) (x y : Nibble) {n : Nibble} (hn : n ≠ 0) : exec (.drw x y n) s =
    .next ((s.withFb (drawSprite s (s.reg x) (s.reg y) n.toNat).1).writeFlag
      (drawSprite s (s.reg x) (s.reg y) n.toNat).2).advance :=
  if_neg hn

end Sys2Proof.Machine
end

section
/-! The family of spec/44_display.md: the statements settled. -/

namespace Sys2Proof.DisplayFamily

open Sys2Proof.Machine Sys2Proof.Safety

/-- Settles O48: the cells by `drawSprite_flips_spriteBit`, the flag, written last, by `drawSprite_collision_iff`; the frame is
that of the two writes. -/
theorem drawInvertsTheSpritesCells : Obligations.DrawInvertsTheSpritesCells := by
  unfold Obligations.DrawInvertsTheSpritesCells
  intro x y n s hn
  obtain ⟨hcells, -⟩ := drawSprite_flips_spriteBit s (s.reg x) (s.reg y) n
  have hflag := drawSprite_collision_iff s (s.reg x) (s.reg y) n
  refine ⟨_, exec_drw_rows s x y hn, hcells, fun hon => ?_, fun hoff => ?_, fun r hr => ?_, rfl, fun _ => rfl,
    ⟨rfl, fun _ => rfl⟩, ⟨rfl, rfl⟩, ⟨rfl, rfl, rfl⟩, State.pcPlus_advance _⟩ <;>
    rw [State.advance_reg, State.reg_writeFlag]
  · rw [if_pos rfl, hflag.mpr hon]
    rfl
  · rw [if_pos rfl, Bool.eq_false_iff.mpr (mt hflag.mp hoff)]
    rfl
  · rw [if_neg hr, State.withFb_reg]

/-- Settles O50: both draws are of the same cells, as the first leaves memory and `I` (`spriteBit_congr`), so each cell of the
sprite is inverted twice, and was off before the first draw exactly when the second finds it on. -/
theorem drawingTwiceErases : Obligations.DrawingTwiceErases := by
  unfold Obligations.DrawingTwiceErases
  intro x y n s hn
  obtain ⟨t, ht, hfirst, -, -, -, hI, hmem, -⟩ := drawInvertsTheSpritesCells x y n s hn
  refine ⟨t, ht, fun hx hy => ?_⟩
  obtain ⟨u, hu, hsecond, hset, hclear, -⟩ := drawInvertsTheSpritesCells x y n t hn
  simp only [hx, hy, spriteBit_congr hmem hI] at hsecond hset hclear
  have hturned : (∃ px py, spriteBit s (s.reg x) (s.reg y) n.toNat px py ∧ t.pixel px py = true) ↔
      ∃ px py, spriteBit s (s.reg x) (s.reg y) n.toNat px py ∧ s.pixel px py = false :=
    exists_congr fun px => exists_congr fun py => and_congr_right fun hbit => by
      rw [(hfirst px py).1 hbit, Bool.not_eq_true']
  refine ⟨u, hu, fun px py => ?_, ?_⟩
  · obtain ⟨hin, hout⟩ := hfirst px py
    obtain ⟨hin', hout'⟩ := hsecond px py
    by_cases hbit : spriteBit s (s.reg x) (s.reg y) n.toNat px py
    · rw [hin' hbit, hin hbit, Bool.not_not]
    · rw [hout' hbit, hout hbit]
  · rw [← hturned]
    refine ⟨fun hone => by_contra fun hnone => ?_, hset⟩
    exact absurd (hone.symm.trans (hclear hnone)) (by decide)

/-- Settles O51: the linear address gives back both coordinates (`linearCell_inj`), and a sprite is smaller than the screen along
both axes, so neither coordinate comes twice (`columnOf_inj`, `rowOf_inj`). -/
theorem framebufferAddressGenerator : Obligations.FramebufferAddressGenerator := by
  unfold Obligations.FramebufferAddressGenerator
  refine ⟨fun ox oy r c => ⟨columnOf_toNat ox c, rowOf_toNat oy r⟩, linearCell_toNat, ?_⟩
  intro ox oy r c r' c' hr hr' hc hc' h
  obtain ⟨hcolumn, hrow⟩ := linearCell_inj h
  exact ⟨rowOf_inj (by omega) (by omega) hrow, columnOf_inj (by omega) (by omega) hcolumn⟩

/-- Settles O52: FX29 points `I` at the digit's glyph and changes nothing else (`glyphAddressIsFiveTimesTheByte`), so row `r` of
the sprite is byte `5d + r` of the table, and a draw changes exactly the cells of the sprite (`drawInvertsTheSpritesCells`). -/
theorem glyphOfADigitIsDrawn : Obligations.GlyphOfADigitIsDrawn := by
  unfold Obligations.GlyphOfADigitIsDrawn
  intro table d x a b s hd htable
  obtain ⟨t, ht, hI, -, hregs, hmem, -, hfb, -⟩ := IndexMemoryFamily.glyphAddressIsFiveTimesTheByte x s
  obtain ⟨u, hu, hcells, -⟩ := drawInvertsTheSpritesCells a b 5 t (by decide)
  rw [hregs, hregs] at hcells
  refine ⟨t, ht, u, hu, fun px py => ?_⟩
  have hrow (r : Nat) (hr : r < 5) : t.memRead (t.I.toNat + r) = tableByte table (5 * d.toNat + r) := by
    rw [hmem, ← htable _ (by omega), hI, hd, Nat.mul_comm]
  have hchanged : u.pixel px py ≠ s.pixel px py ↔ spriteBit t (s.reg a) (s.reg b) 5 px py := by
    obtain ⟨hin, hout⟩ := hcells px py
    rw [← hfb]
    refine ⟨fun hne => by_contra fun hbit => hne (hout hbit), fun hbit => ?_⟩
    rw [hin hbit]
    exact Bool.not_ne_self _
  rw [hchanged]
  refine exists_congr fun r => exists_congr fun c => and_congr_right fun hr => ?_
  rw [hrow r hr]

/-- Settles O47: every cell of the clear framebuffer reads off (`FrameBuffer.get_clear`), and nothing else is written. -/
theorem clearTurnsEveryCellOff : Obligations.ClearTurnsEveryCellOff := by
  unfold Obligations.ClearTurnsEveryCellOff
  exact ⟨decode_encode (i := .cls) rfl, fun s => ⟨(s.withFb FrameBuffer.clear).advance, rfl, FrameBuffer.get_clear,
    State.pcPlus_advance _, fun _ => rfl, rfl, fun _ => rfl, ⟨rfl, fun _ => rfl⟩, ⟨rfl, rfl⟩, rfl, rfl, rfl⟩⟩

/-- Settles O49: with no rows the meaning is the default advance, which writes no register. -/
theorem drawOfHeightZeroIsANoOperation : Obligations.DrawOfHeightZeroIsANoOperation := by
  unfold Obligations.DrawOfHeightZeroIsANoOperation
  exact fun x y s => ⟨s.advance, rfl, s.pcPlus_advance, s.onlyPC_jump _⟩

end Sys2Proof.DisplayFamily
end

section
/-! SUPPORT. Keys and timers: what the writes of an instruction read of the key port, the key tests and the key scan as the
statements speak of them, and the timers under repeated ticks. -/

namespace Sys2Proof.Machine

open Sys2Proof.Safety

/-! ## What an instruction reads of the ports, and that it leaves them -/

/-- The state with another vector at the key port (R130; log entry 3). -/
def State.withKeys (s : State) (k : BitVec 16) : State := { s with keys := k }

/-- A push reads only the stack, in both of its branches. -/
theorem State.push_withKeys (s : State) (k : BitVec 16) (a : Addr) :
    (s.withKeys k).push a = (s.push a).withKeys k := by
  by_cases h : s.SP.val < 16 <;> simp [State.push, State.withKeys, h]

/-- Each of a block's writes commutes with a change of the key port, so the block does. -/
theorem State.storeBlock_withKeys (s : State) (k : BitVec 16) (n : Nat) :
    (s.withKeys k).storeBlock n = (s.storeBlock n).withKeys k :=
  List.foldl_hom (State.withKeys · k) fun _ _ => rfl

theorem State.loadBlock_withKeys (s : State) (k : BitVec 16) (n : Nat) :
    (s.withKeys k).loadBlock n = (s.loadBlock n).withKeys k :=
  List.foldl_hom (State.withKeys · k) fun _ _ => rfl

/-- An instruction other than `EX9E`, `EXA1` and `FX0A` writes the same whatever stands at the key port, and leaves the port
(R130). -/
theorem effect_withKeys {i : Instr} (h : ¬ readsKeys i) (s : State) (k : BitVec 16) :
    effect i (s.withKeys k) = (effect i s).withKeys k := by
  cases i with
  | skp _ | sknp _ | ldVxK _ => exact absurd trivial h
  | call _ => exact s.push_withKeys k _
  | drw x y n =>
    by_cases hn : n = 0
    · rw [effect_drw_zero _ x y hn, effect_drw_zero _ x y hn]
    · rw [effect_drw_rows _ x y hn, effect_drw_rows _ x y hn]
      rfl
  | storeRegs x => exact s.storeBlock_withKeys k _
  | loadRegs x => exact s.loadBlock_withKeys k _
  | _ => rfl

/-- The next `PC` of an instruction that does not read the key port does not depend on it (R73). -/
theorem nextPC_withKeys {i : Instr} (h : ¬ readsKeys i) (s : State) (k : BitVec 16) :
    nextPC i (s.withKeys k) = nextPC i s := by
  cases i with
  | skp _ | sknp _ | ldVxK _ => exact absurd trivial h
  | _ => rfl

/-- No instruction writes the key port: the readers write a register at most, and for the others the vector that is there is
one they run the same with (R130, D20). -/
theorem effect_keys (i : Instr) (s : State) : (effect i s).keys = s.keys := by
  by_cases h : readsKeys i
  · cases i with
    | skp _ | sknp _ => rfl
    | ldVxK x => cases hk : firstKeyDown s.keys <;> simp [effect, hk]
    | _ => exact h.elim
  · calc (effect i s).keys = ((effect i s).withKeys s.keys).keys := congrArg State.keys (effect_withKeys h s s.keys)
      _ = s.keys := rfl

/-- An instruction other than `CXNN` leaves the random port and the count of consumed bytes: what is there is something it runs
the same with (R101, D12). -/
theorem effect_random {i : Instr} (h : ¬ readsRandom i) (s : State) :
    (effect i s).rnd = s.rnd ∧ (effect i s).draws = s.draws := by
  have hport : effect i s = (effect i s).withRandom s.rnd s.draws := effect_withRandom h s s.rnd s.draws
  rw [hport]
  exact ⟨rfl, rfl⟩

/-- An instruction that does not read the key port takes the state with any vector there to its next state with that vector. -/
theorem exec_withKeys {i : Instr} (h : ¬ readsKeys i) (s : State) (k : BitVec 16) :
    exec i (s.withKeys k) = .next (((effect i s).jump (BitVec.ofNat 12 (nextPC i s))).withKeys k) := by
  rw [exec_eq_jump_effect, effect_withKeys h, nextPC_withKeys h]
  rfl

/-- An instruction other than `CXNN` takes the state with any random port to its next state with that port. -/
theorem exec_withRandom {i : Instr} (h : ¬ readsRandom i) (s : State) (b : Option Byte) (d : Nat) :
    exec i (s.withRandom b d) = .next (((effect i s).jump (BitVec.ofNat 12 (nextPC i s))).withRandom b d) := by
  rw [exec_eq_jump_effect, effect_withRandom h, nextPC_withRandom]
  rfl

/-! ## The key tests and the key scan -/

theorem keyDown_eq_decide (s : State) (v : Byte) : keyDown s.keys v = decide (KeyIsDown s v) := by
  rw [Bool.eq_iff_iff, keyDown_eq_true_iff, decide_eq_true_iff]

/-- `EX9E` skips on the key query of the statements (R131). -/
theorem exec_skp (x : Nibble) (s : State) :
    exec (.skp x) s = .next (s.skipIf (decide (KeyIsDown s (s.reg x)))) := by
  rw [exec, execSkp, keyDown_eq_decide]

/-- `EXA1` skips on its negation (R132, D10). -/
theorem exec_sknp (x : Nibble) (s : State) :
    exec (.sknp x) s = .next (s.skipIf (decide (¬ KeyIsDown s (s.reg x)))) := by
  rw [exec, execSknp, keyDown_eq_decide, decide_not]

/-- The key scan answers the key that is down and above no other that is (R133). -/
theorem firstKeyDown_of_least {keys : BitVec 16} {k : Nat} (hlt : k < 16) (hdown : keys.getLsbD k = true)
    (hleast : ∀ j, j < k → keys.getLsbD j = false) : firstKeyDown keys = some k := by
  rw [firstKeyDown, List.find?_range_eq_some]
  exact ⟨hdown, List.mem_range.mpr hlt, fun j hj => by rw [hleast j hj]; rfl⟩

/-- With no key down the key scan answers none (R133). -/
theorem firstKeyDown_of_none_down {keys : BitVec 16} (h : ∀ k, k < 16 → keys.getLsbD k = false) :
    firstKeyDown keys = none := by
  rw [firstKeyDown, List.find?_eq_none]
  exact fun k hk => Bool.eq_false_iff.mp (h k (List.mem_range.mp hk))

/-- `FX0A` with no key down gives back the state: it jumps to where it is (R133, R73). -/
theorem exec_ldVxK_of_none_down {s : State} (h : ∀ k, k < 16 → s.keys.getLsbD k = false) (x : Nibble) :
    exec (.ldVxK x) s = .next s := by
  rw [exec, execLdVxK, firstKeyDown_of_none_down h]
  rfl

/-- `FX0A` with a key down writes the least one and advances (R133). -/
theorem exec_ldVxK_of_least {s : State} {k : Nat} (hlt : k < 16) (hdown : s.keys.getLsbD k = true)
    (hleast : ∀ j, j < k → s.keys.getLsbD j = false) (x : Nibble) :
    exec (.ldVxK x) s = .next (s.writeReg x (BitVec.ofNat 8 k)).advance := by
  rw [exec, execLdVxK, firstKeyDown_of_least hlt hdown hleast]

/-! ## Timers under repeated ticks -/

/-- Counting down stops at 0 (R144, R18). -/
theorem countDown_toNat (t : Byte) : (countDown t).toNat = t.toNat - 1 := by
  unfold countDown
  split_ifs with h
  · rw [h]; rfl
  · bv_omega

/-- `n` times counting down takes `n` away, floored at 0 (R144). -/
theorem countDown_iterate_toNat (n : Nat) (t : Byte) : (countDown^[n] t).toNat = t.toNat - n := by
  induction n with
  | zero => rfl
  | succ n ih => rw [Function.iterate_succ_apply', countDown_toNat, ih, Nat.sub_sub]

/-- Repeated ticks count the sound timer down by itself (R144). -/
theorem tick_iterate_ST (n : Nat) (s : State) : (tick^[n] s).ST = countDown^[n] s.ST :=
  Function.Semiconj.iterate_right (f := State.ST) (fun _ => rfl) n s

/-- The sound query is whether `ST` is above 0 (R145). -/
theorem isSoundActive_iff (s : State) : isSoundActive s = true ↔ 0 < s.ST.toNat := by
  rw [isSoundActive, bne_iff_ne, Nat.pos_iff_ne_zero, Ne, Ne, ← BitVec.toNat_inj]
  rfl

end Sys2Proof.Machine
end

section
/-! The family of spec/45_keys_timers.md: the statements settled. -/

namespace Sys2Proof.KeysTimersFamily

open Sys2Proof.Machine Sys2Proof.Safety

/-- Settles O12: the jump that ends an instruction touches no port; its writes leave the ports they do not read (`effect_keys`,
`effect_random`) and are the same whatever stands there (`exec_withKeys`, `exec_withRandom`). -/
theorem portsReadOnlyByTheirInstructions : Obligations.PortsReadOnlyByTheirInstructions := by
  unfold Obligations.PortsReadOnlyByTheirInstructions
  intro i s
  refine ⟨_, exec_eq_jump_effect i s, effect_keys i s, fun h => exec_withKeys h s, fun h => ?_⟩
  obtain ⟨hrnd, hdraws⟩ := effect_random h s
  exact ⟨hrnd, hdraws, exec_withRandom h s⟩

/-- Settles O57: the query is on `ST` (`isSoundActive_iff`), which is `Vx` after the instruction and `n` less, floored at 0, after
`n` ticks (`tick_iterate_ST`, `countDown_iterate_toNat`). -/
theorem soundIsActiveUntilTheTimerRunsOut : Obligations.SoundIsActiveUntilTheTimerRunsOut := by
  unfold Obligations.SoundIsActiveUntilTheTimerRunsOut
  intro x s
  refine ⟨decode_encode (i := .ldSTVx x) rfl, isSoundActive_iff s, rfl, (s.writeST (s.reg x)).advance, rfl, rfl, rfl,
    State.pcPlus_advance _, fun _ => rfl, rfl, fun _ => rfl, ⟨rfl, fun _ => rfl⟩, fun _ _ => rfl, ⟨rfl, rfl, rfl⟩,
    fun n => ?_⟩
  rw [isSoundActive_iff, tick_iterate_ST, countDown_iterate_toNat, Nat.sub_pos_iff_lt]
  rfl

/-- Settles O53: it is the skip on the key query (`exec_skp`). -/
theorem skipIfKeyDown : Obligations.SkipIfKeyDown := by
  unfold Obligations.SkipIfKeyDown
  exact fun x s => ⟨decode_encode (i := .skp x) rfl, _, exec_skp x s, s.pcSkips_skipIf _, s.onlyPC_skipIf _⟩

/-- Settles O54: it is the skip on the negation of the key query (`exec_sknp`), which no byte of 16 or more meets. -/
theorem skipIfKeyNotDown : Obligations.SkipIfKeyNotDown := by
  unfold Obligations.SkipIfKeyNotDown
  exact fun x s => ⟨_, exec_sknp x s, s.pcSkips_skipIf _, s.onlyPC_skipIf _⟩

/-- Settles O55: with no key down the instruction gives back the state (`exec_ldVxK_of_none_down`), and with a least key down
it writes that key (`exec_ldVxK_of_least`). -/
theorem keyWaitTakesTheLeastKey : Obligations.KeyWaitTakesTheLeastKey := by
  unfold Obligations.KeyWaitTakesTheLeastKey
  intro x s
  obtain ⟨t, ht⟩ : ∃ t, exec (.ldVxK x) s = .next t := ⟨_, exec_eq_jump_effect _ s⟩
  refine ⟨decode_encode (i := .ldVxK x) rfl, t, ht, fun hnone => ?_, fun k hlt hdown hleast => ?_⟩
  · rw [exec_ldVxK_of_none_down hnone] at ht
    exact (Host.Outcome.next.inj ht).symm
  · rw [exec_ldVxK_of_least hlt hdown hleast] at ht
    obtain rfl := Host.Outcome.next.inj ht
    rw [State.advance_reg, State.reg_writeReg_self]
    exact ⟨Nat.mod_eq_of_lt (by omega), s.frame_advance_writeReg x _⟩

/-- Settles O56: reading is the write of one register (`State.reg_writeReg`) and setting the write of `DT` alone. -/
theorem delayTimerIsReadAndSet : Obligations.DelayTimerIsReadAndSet := by
  unfold Obligations.DelayTimerIsReadAndSet
  intro x s
  refine ⟨decode_encode (i := .ldVxDT x) rfl, decode_encode (i := .ldDTVx x) rfl,
    ⟨_, rfl, fun r => s.reg_writeReg x r s.DT, s.pcPlus_onlyRegs_advance_writeReg x s.DT⟩,
    (s.writeDT (s.reg x)).advance, rfl, rfl, rfl, State.pcPlus_advance _, fun _ => rfl, rfl, fun _ => rfl,
    ⟨rfl, fun _ => rfl⟩, fun _ _ => rfl, ⟨rfl, rfl, rfl⟩⟩

end Sys2Proof.KeysTimersFamily
end

section
/-! SUPPORT. What a host operation does to the invariant, to a byte of memory and to the timers, and sequences of operations by
their first operation and by their parts. -/

namespace Sys2Proof.Machine

open Sys2Proof.Safety

/-! ## One host operation -/

/-- Inside the contract a load is one memory write, into the program area (R142, C2, D15). -/
theorem loadByte_of_le {offset : BitVec 12} (h : offset.toNat ≤ 3071) (b : Byte) (s : State) :
    loadByte offset b s = .next (s.memWrite (0x200 + offset.toNat) b) := if_pos h

/-- A load past the contract's range is refused (D15, U9; log entry 8). -/
theorem loadByte_of_ge {offset : BitVec 12} (h : 3072 ≤ offset.toNat) (b : Byte) (s : State) :
    loadByte offset b s = .refused .loadOffsetOutOfContract := if_neg (Nat.not_le.mpr h)

/-- A step completes and keeps the canonical form: only the writes of the instruction can touch memory (R150, R30). -/
theorem hostStep_keeps_stateInv {s : State} (h : StateInv s) (keys : BitVec 16) (rnd : Byte) :
    ∃ t, hostStep keys rnd s = .next t ∧ StateInv t :=
  ⟨_, exec_eq_jump_effect _ _, effect_wf (s := s.present keys rnd) h _⟩

/-- Inside the contract an operation completes and keeps the invariant (R140, R147). -/
theorem applyHostOp_keeps_stateInv (table : Config.GlyphTable) {op : HostOp} (hc : WithinContract op) {s : State}
    (h : StateInv s) : ∃ t, applyHostOp table op s = .next t ∧ StateInv t := by
  cases op with
  | reset => exact ⟨_, rfl, State.resetWith_wf table⟩
  | load offset b => exact ⟨_, loadByte_of_le hc b s, State.memWrite_wf h _ b⟩
  | step keys rnd => exact hostStep_keeps_stateInv h keys rnd
  | tick => exact ⟨tick s, rfl, h⟩

/-! ## Sequences of operations -/

theorem runHost_cons_of_next {table : Config.GlyphTable} {op : HostOp} {s t : State}
    (h : applyHostOp table op s = .next t) (ops : List HostOp) : runHost table (op :: ops) s = runHost table ops t := by
  rw [runHost, h]

/-- Operations after a sequence that completes run from where it ended (R147). -/
theorem runHost_append_of_next {table : Config.GlyphTable} {ops : List HostOp} {s t : State}
    (h : runHost table ops s = .next t) (ops' : List HostOp) : runHost table (ops ++ ops') s = runHost table ops' t := by
  induction ops generalizing s with
  | nil =>
    obtain rfl := Host.Outcome.next.inj h
    rfl
  | cons op ops ih =>
    cases ha : applyHostOp table op s with
    | next u =>
      rw [runHost_cons_of_next ha] at h
      rw [List.cons_append, runHost_cons_of_next ha, ih h]
    | fault f => exact nomatch f
    | refused r => simp [runHost, ha] at h

/-- Inside the contract a sequence of operations completes and keeps the invariant, as each of its operations does. -/
theorem runHost_keeps_stateInv (table : Config.GlyphTable) {ops : List HostOp} (hc : ∀ op ∈ ops, WithinContract op)
    {s : State} (h : StateInv s) : ∃ t, runHost table ops s = .next t ∧ StateInv t := by
  induction ops generalizing s with
  | nil => exact ⟨s, rfl, h⟩
  | cons op ops ih =>
    obtain ⟨hop, hops⟩ := List.forall_mem_cons.mp hc
    obtain ⟨t, ht, hinv⟩ := applyHostOp_keeps_stateInv table hop h
    rw [runHost_cons_of_next ht]
    exact ih hops hinv

/-- A reset alone leads from any state to the nine items of the reset state (R141, R171, D22). -/
theorem runHost_reset_sameArch (table : Config.GlyphTable) (s : State) :
    ∃ u, runHost table [.reset] s = .next u ∧ SameArch (State.resetWith table) u :=
  ⟨_, rfl, rfl, rfl, rfl, rfl, rfl, rfl, rfl, rfl, rfl⟩

/-! ## Timers under repeated ticks -/

/-- Repeated ticks count the delay timer down by itself (R144). -/
theorem tick_iterate_DT (n : Nat) (s : State) : (tick^[n] s).DT = countDown^[n] s.DT :=
  Function.Semiconj.iterate_right (f := State.DT) (fun _ => rfl) n s

end Sys2Proof.Machine
end

section
/-! The family of spec/46_host_operations.md: the statements settled. -/

namespace Sys2Proof.HostOperationsFamily

open Sys2Proof.Machine Sys2Proof.Safety

/-- Settles O4: the operations keep the invariant (`runHost_keeps_stateInv`), a reset after them runs from where they ended
(`runHost_append_of_next`), and a history runs them from the reset state, which meets the invariant. -/
theorem historiesCompleteAndKeepTheInvariant : Obligations.HistoriesCompleteAndKeepTheInvariant := by
  unfold Obligations.HistoriesCompleteAndKeepTheInvariant
  intro table ops hc
  refine ⟨fun s hs => ?_, runHost_keeps_stateInv table hc (State.resetWith_wf table)⟩
  obtain ⟨t, ht, hinv⟩ := runHost_keeps_stateInv table hc hs
  refine ⟨t, ht, hinv, ?_⟩
  rw [runHost_append_of_next ht]
  exact runHost_reset_sameArch table t

/-- Settles O58: a tick counts each timer down (`countDown_toNat`, `countDown_iterate_toNat`), and the writes of an instruction
change a timer only where R10 names it (`effect_frame`). -/
theorem ticksCountDownAndStepsDoNot : Obligations.TicksCountDownAndStepsDoNot := by
  unfold Obligations.TicksCountDownAndStepsDoNot
  refine ⟨fun table s => ?_, fun s n => ?_, fun s => ?_⟩
  · exact ⟨tick s, rfl, countDown_toNat s.DT, countDown_toNat s.ST, rfl, rfl, fun _ => rfl, fun _ => rfl,
      ⟨rfl, fun _ => rfl⟩, fun _ _ => rfl, rfl, rfl, rfl⟩
  · rw [tick_iterate_DT, tick_iterate_ST, countDown_iterate_toNat, countDown_iterate_toNat]
    exact ⟨rfl, rfl⟩
  · obtain ⟨-, -, -, hDT, hST, -⟩ := effect_frame (decode (fetch s)) s
    exact ⟨_, exec_eq_jump_effect _ s, hDT, hST⟩

/-- Settles O59: the load is one memory write (`loadByte_of_le`) at an address below 4096, read there and nowhere else. -/
theorem loadByteWritesOneProgramByte : Obligations.LoadByteWritesOneProgramByte := by
  unfold Obligations.LoadByteWritesOneProgramByte
  intro table offset b s h
  have haddr : (0x200 + offset.toNat) % 4096 = 0x200 + offset.toNat := Nat.mod_eq_of_lt (by omega)
  refine ⟨_, loadByte_of_le h b s, ?_, fun a ha => ?_, rfl, onlyMemory_withMemory s _⟩
  · rw [State.memRead_memWrite, if_pos rfl]
  · rw [State.memRead_memWrite, if_neg (haddr.symm ▸ ha)]

/-- Settles O60: the load is past the contract's range (`loadByte_of_ge`), and a history runs nothing before its reset. -/
theorem callsOutsideTheContractAreRefused : Obligations.CallsOutsideTheContractAreRefused := by
  unfold Obligations.CallsOutsideTheContractAreRefused
  refine ⟨fun _ _ b s h => loadByte_of_ge h b s, fun table op ops hop => ?_⟩
  cases op with
  | reset => exact absurd rfl hop
  | load _ _ | step _ _ | tick => rfl

end Sys2Proof.HostOperationsFamily
end

section
/-! SUPPORT. Totality: every instruction completes in every state, as its writes and its next program counter are functions of
the state. -/

namespace Sys2Proof.Machine

/-- An instruction completes in every state: the step ends where its writes and its next program counter leave it
(`exec_eq_jump_effect`); there is no fault and no refusal (R150). -/
theorem exec_completes (i : Instr) (s : State) : ∃ t, exec i s = .next t := ⟨_, exec_eq_jump_effect i s⟩

end Sys2Proof.Machine
end

section
/-! The family of spec/60_exceptions.md: the statement settled. -/

namespace Sys2Proof.ExceptionsFamily

open Sys2Proof.Machine

/-- Settles O5: the step the host requests is the execution of the word fetched, in the state with the ports presented, and an
instruction completes in every state (`exec_completes`). -/
theorem everyStepHasASuccessor : Obligations.EveryStepHasASuccessor := by
  unfold Obligations.EveryStepHasASuccessor
  intro keys rnd s
  have hexec : ∀ w : Word, ∃ t, exec (decode w) (s.present keys rnd) = .next t := fun w => exec_completes (decode w) _
  exact ⟨hexec (fetch (s.present keys rnd)), hexec⟩

end Sys2Proof.ExceptionsFamily
end

section
/-! SUPPORT. A jump to itself: the number of a format A word, the fetch with the ports presented, and the step that stays. -/

namespace Sys2Proof

/-- A format A word as a number: the family above the 12 bits of the address (R52). -/
theorem formA_toNat (op : Nibble) (nnn : Addr) : (formA op nnn).toNat = op.toNat * 4096 + nnn.toNat := by
  rw [formA, BitVec.toNat_append, ← Nat.shiftLeft_add_eq_or_of_lt nnn.isLt, Nat.shiftLeft_eq]

end Sys2Proof

namespace Sys2Proof.Machine

/-- The ports are no part of what is fetched (R71, R143). -/
@[simp] theorem fetch_present (s : State) (keys : BitVec 16) (rnd : Byte) : fetch (s.present keys rnd) = fetch s := rfl

/-- A step that fetches a jump to its own address answers the very same state (R81, R177). -/
theorem step_of_fetch_selfJump {s : State} (h : fetch s = formA 0x1 s.PC) : step s = .next s := by
  obtain ⟨hdecode, t, hexec, -, -, hself⟩ := ControlFlowFamily.jumpSetsOnlyTheProgramCounter s.PC s
  rw [step, h, hdecode, hexec, hself rfl]

end Sys2Proof.Machine
end

section
/-! The family of spec/70_reset_and_hazards.md: the statement settled. -/

namespace Sys2Proof.ResetHazardsFamily

open Sys2Proof.Machine

/-- Settles O14: the word is the jump to `PC` by its number (`formA_toNat`), whatever the ports present it is the word fetched
(`fetch_present`), and that jump leaves the whole state (`step_of_fetch_selfJump`). -/
theorem selfJumpEndsTheRun : Obligations.SelfJumpEndsTheRun := by
  unfold Obligations.SelfJumpEndsTheRun
  intro s h keys rnd
  have hword : fetch s = formA 0x1 s.PC := BitVec.eq_of_toNat_eq (h.trans (formA_toNat 0x1 s.PC).symm)
  exact step_of_fetch_selfJump ((fetch_present s keys rnd).trans hword)

end Sys2Proof.ResetHazardsFamily
end
